-- ==== Sys2Proof/Config.lean ====
section
/-! DEFINITION. The implementation parameters of spec/00_scope.md R7: the values the spec fixes or decides, and the OPEN
ones as opaque constants (no body, so that nothing can be proved of their value).
CMD_TRANSPORT is an argument, in Machine/Transport.lean: "A model takes the transaction whole" (R60; log entry 9). -/

namespace Sys2Proof.Config

/-- R7 `WORD_BITS`, fixed. -/
def wordBits : Nat := 32

/-- R7 `LEN_BITS`, fixed: "64 (two 32-bit halves)". -/
def lenBits : Nat := 64

/-- R7 `BLOCK_BYTES`, fixed. -/
def blockBytes : Nat := 64

/-- R7 `BUF_BYTES`, fixed; "at most 63 hold pending input between commands". -/
def bufBytes : Nat := 64

/-- R7 `ROUNDS`, fixed: "64, in 4 stages of 16". -/
def rounds : Nat := 64

/-- R7 `DIGEST_BYTES`, fixed. -/
def digestBytes : Nat := 16

/-- R7 `PAD_TARGET`, fixed: 56 mod 64. -/
def padTarget : Nat := 56

/-- R7 `LENFIELD_BYTES`, fixed. -/
def lenFieldBytes : Nat := 8

/-- R7 `MAX_CHUNK`, decided (D5): the largest byte count of one UPDATE. -/
def maxChunk : Nat := 2 ^ 24 - 1

/-- R7, R226 `BLOCK_LATENCY`, OPEN: the time of one Compression Transform, "bounded, and independent of the data"
(a constant is both). No effect of any command depends on it (log entry 8). -/
opaque blockLatency : Nat

/-- How many instances a platform holds beside the first: R213 says only that NUM_INSTANCES is "at least 1". -/
opaque otherInstances : Nat

/-- R7, R213 `NUM_INSTANCES`, OPEN, "of at least 1" (log entry 7). -/
def numInstances : Nat := otherInstances + 1

end Sys2Proof.Config
end

