-- ==== Sys2Proof/Word.lean ====
section
/-! DEFINITION. Bytes, words, blocks and the four-word state (spec/00_scope.md R8, R13; spec/10_state.md R20).
Every value of MD5C is unsigned: nothing here is ever sign-extended (R8). -/

namespace Sys2Proof

/-- R8: "A byte is 8 bits." -/
abbrev Byte := BitVec 8

/-- R8: "A word is 32 bits." On words `+` is addition modulo 2^32 (R9), which is what `BitVec 32` gives. -/
abbrev Word := BitVec 32

/-- R13: a block is "a fixed 64-byte unit of input consumed by one invocation of the Compression Transform". -/
abbrev Block := Vector Byte 64

/-- The four-word state: R13's "Accumulator state (A,B,C,D)". It is the type of the accumulator registers (R20), of the
working variables of one transform (R29) and of COMPRESS's state operand (R126). -/
structure Accumulators where
  a : Word
  b : Word
  c : Word
  d : Word
deriving DecidableEq, Repr

end Sys2Proof
end

