-- ==== Sys2Proof/Syntax.lean ====
section
/-! DEFINITION. The six commands of spec/30_encoding.md R63 with their operands: one constructor per row of
spec/opcode_table.json. Payload lengths that are one fixed number are part of the type; the one that is not (UPDATE's)
is checked in WellFormed.lean. -/

namespace Sys2Proof

/-- The commands a host sends (R6: "The 'instructions' of this spec are the *commands* a host sends"). -/
inductive Instr where
  /-- R146 INIT: no operands. -/
  | init
  /-- R147 UPDATE: the byte count `N = CMD[31:8]` and the payload bytes, earliest first (R65). -/
  | update (n : BitVec 24) (pb : List Byte)
  /-- R150 FINALIZE: no operands. -/
  | finalize
  /-- R103 DECW: exactly 4 payload bytes. -/
  | decw (pb : Vector Byte 4)
  /-- R104 ENCW: exactly 1 payload word. -/
  | encw (w : Word)
  /-- R126 COMPRESS: the input state `[a0, b0, c0, d0]` and exactly 64 payload bytes. -/
  | compress (st : Accumulators) (blk : Block)
deriving DecidableEq, Repr

end Sys2Proof
end

