-- ==== Sys2Proof/WellFormed.lean ====
section
/-! DEFINITION. Which terms of `Instr` a command transaction can carry (spec/30_encoding.md R64). The counts of PW and PB
that R63 fixes are in the types of Syntax.lean; what is left is UPDATE's: "For UPDATE this is N". -/

namespace Sys2Proof

/-- R64 on syntax: UPDATE's payload has exactly N bytes; the other five commands are well-formed as they are typed. -/
def Instr.wellFormed : Instr → Bool
  | .init => true
  | .update n pb => pb.length == n.toNat
  | .finalize => true
  | .decw _ => true
  | .encw _ => true
  | .compress _ _ => true

end Sys2Proof
end

