-- ==== Sys2Proof/Decode.lean ====
section
/-! DEFINITION. Command transactions, the opcode map, the decoder and the encoder (spec/30_encoding.md R60 to R70). -/

namespace Sys2Proof

/-! ### Transactions -/

/-- R60: a command transaction: the command word CMD, the word payload PW and the byte payload PB. -/
structure Transaction where
  cmd : Word
  pw  : List Word
  pb  : List Byte
deriving DecidableEq, Repr

/-- R61: `OPC = CMD[7:0]`. -/
def opcField (cmd : Word) : Byte := cmd.extractLsb' 0 8

/-- R61: `ARG = CMD[31:8]`. -/
def argField (cmd : Word) : BitVec 24 := cmd.extractLsb' 8 24

/-- R61, R70: the command word with the given fields, ARG above OPC: `CMD = (N << 8) | OPC`. -/
def cmdWord (arg : BitVec 24) (opc : Byte) : Word := (arg.setWidth 32 <<< 8) ||| opc.setWidth 32

/-! ### The opcode map of R63 -/

/-- The six legal values of OPC, by mnemonic. -/
inductive Opcode where
  | init | update | finalize | decw | encw | compress
deriving DecidableEq, Repr

/-- R61: format Z ("ARG must be 0") and format N ("ARG is a byte count N"). -/
inductive Format where
  | z | n
deriving DecidableEq, Repr

/-- R63, column OPC. -/
def Opcode.toByte : Opcode → Byte
  | .init => 0x01
  | .update => 0x02
  | .finalize => 0x03
  | .decw => 0x10
  | .encw => 0x11
  | .compress => 0x12

/-- R63, column format: "Only UPDATE uses format N" (R61). -/
def Opcode.format : Opcode → Format
  | .init => .z
  | .update => .n
  | .finalize => .z
  | .decw => .z
  | .encw => .z
  | .compress => .z

/-- R63, column |PW|. -/
def Opcode.pwCount : Opcode → Nat
  | .init => 0
  | .update => 0
  | .finalize => 0
  | .decw => 0
  | .encw => 1
  | .compress => 4

/-- R63, column |PB|: fixed, or N for UPDATE, "not scaled, shifted or sign-extended" (R65). -/
def Opcode.pbCount (op : Opcode) (arg : BitVec 24) : Nat :=
  match op with
  | .init => 0
  | .update => arg.toNat
  | .finalize => 0
  | .decw => 4
  | .encw => 0
  | .compress => 64

/-- R63, column "RW on OK": how many result words an OK response carries. -/
def Opcode.rwCount : Opcode → Nat
  | .init => 0
  | .update => 0
  | .finalize => 0
  | .decw => 1
  | .encw => 0
  | .compress => 4

/-- R63, column "RB on OK": how many result bytes an OK response carries. -/
def Opcode.rbCount : Opcode → Nat
  | .init => 0
  | .update => 0
  | .finalize => 16
  | .decw => 0
  | .encw => 4
  | .compress => 0

/-- The rows of R63. -/
def Opcode.all : List Opcode := [.init, .update, .finalize, .decw, .encw, .compress]

/-- R66: every OPC that is not in R63's map is illegal. -/
def Opcode.ofByte (b : Byte) : Option Opcode := Opcode.all.find? fun op => op.toByte == b

/-! ### The checks of R64 -/

/-- R64 `arg_ok`: "ARG = 0 in format Z. Any ARG passes in format N." -/
abbrev ArgOk (op : Opcode) (t : Transaction) : Prop := op.format = .z → argField t.cmd = 0

/-- R64 `pw_ok`. -/
abbrev PwOk (op : Opcode) (t : Transaction) : Prop := t.pw.length = op.pwCount

/-- R64 `pb_ok`. -/
abbrev PbOk (op : Opcode) (t : Transaction) : Prop := t.pb.length = op.pbCount (argField t.cmd)

/-- R64: "A transaction is *well-formed* for a legal OPC when all three of these checks pass". -/
abbrev ShapeOk (op : Opcode) (t : Transaction) : Prop := ArgOk op t ∧ PwOk op t ∧ PbOk op t

/-! ### Decoding -/

/-- R67: the two refusals of the decoder. -/
inductive DecodeReject where
  /-- OPC is not in R63's map (R66, R201). -/
  | illegalOpcode
  /-- A legal OPC, but a check of R64 fails (R202). -/
  | badOperand
deriving DecidableEq, Repr

/-- R65: the operands of a well-formed transaction. PW words and PB bytes are taken whole and in order. -/
def operands : (op : Opcode) → (t : Transaction) → ShapeOk op t → Instr
  | .init, _, _ => .init
  | .update, t, _ => .update (argField t.cmd) t.pb
  | .finalize, _, _ => .finalize
  | .decw, t, h => .decw ⟨⟨t.pb⟩, h.2.2⟩
  | .encw, t, h => .encw (t.pw[0]'(by have := h.2.1; simp [PwOk, Opcode.pwCount] at this; omega))
  | .compress, t, h =>
    have hpw : t.pw.length = 4 := h.2.1
    .compress ⟨t.pw[0], t.pw[1], t.pw[2], t.pw[3]⟩ ⟨⟨t.pb⟩, h.2.2⟩

/-- R67: total; exactly one of a command with its operands, an illegal opcode, a bad operand. The opcode is looked at
first: "The shape checks depend on OPC, so they cannot be applied to an illegal one" (R205). -/
def decode (t : Transaction) : Except DecodeReject Instr :=
  match Opcode.ofByte (opcField t.cmd) with
  | none => .error .illegalOpcode
  | some op => if h : ShapeOk op t then .ok (operands op t h) else .error .badOperand

/-! ### Encoding -/

/-- The row of R63 a command belongs to. -/
def Instr.opcode : Instr → Opcode
  | .init => .init
  | .update _ _ => .update
  | .finalize => .finalize
  | .decw _ => .decw
  | .encw _ => .encw
  | .compress _ _ => .compress

/-- The transaction that carries a command (R70's transactions; the command words are those of R146, R147, R150, R103,
R104 and R126). -/
def encode : Instr → Transaction
  | .init => ⟨cmdWord 0 Opcode.init.toByte, [], []⟩
  | .update n pb => ⟨cmdWord n Opcode.update.toByte, [], pb⟩
  | .finalize => ⟨cmdWord 0 Opcode.finalize.toByte, [], []⟩
  | .decw pb => ⟨cmdWord 0 Opcode.decw.toByte, [], pb.toList⟩
  | .encw w => ⟨cmdWord 0 Opcode.encw.toByte, [w], []⟩
  | .compress st blk => ⟨cmdWord 0 Opcode.compress.toByte, [st.a, st.b, st.c, st.d], blk.toList⟩

/-! ### A transaction from the bits of a command -/

/-- R69: "From CMD alone a decoder knows how long the payload must be": the numbers of payload words and bytes,
for a legal OPC. For an illegal one the spec gives no lengths (R66 lets PW and PB be anything), and the model takes none
(DESIGN CHOICE, log entry 5): the units after such a CMD are left where they are. -/
def payloadShape (cmd : Word) : Nat × Nat :=
  match Opcode.ofByte (opcField cmd) with
  | none => (0, 0)
  | some op => (op.pwCount, op.pbCount (argField cmd))

/-- The transaction whose bits are `w`: bits 31..0 are CMD, then come the payload words and then the payload bytes that
CMD asks for, each unit's least significant bit first (DESIGN CHOICE, log entry 5: the spec lays a payload after CMD but
numbers no bits of it). Bits from `nbits` on are 0. -/
def Transaction.ofBits (nbits w : Nat) : Transaction :=
  let bits := w % 2 ^ nbits
  let cmd : Word := BitVec.ofNat 32 bits
  let shape := payloadShape cmd
  { cmd := cmd
    pw := (List.range shape.1).map fun i => BitVec.ofNat 32 (bits >>> (32 + 32 * i))
    pb := (List.range shape.2).map fun j => BitVec.ofNat 8 (bits >>> (32 + 32 * shape.1 + 8 * j)) }

/-- What the decoder reads from the command whose bits are `w`. -/
def decodeTableWord (nbits w : Nat) : Option Instr :=
  match decode (Transaction.ofBits nbits w) with
  | .ok i => some i
  | .error _ => none

end Sys2Proof
end

