-- ==== Sys2Proof/Machine/State.lean ====
section
/-! DEFINITION. The state of one MD5C instance (spec/10_state.md R20) with the two ends of its ports
(spec/30_encoding.md R60, R62), the reasons a step can stop, and the state after reset (R31, R220). -/

namespace Sys2Proof.Machine

/-! ### What travels on the ports -/

/-- R68: the four status codes. "No rule produces 0x04 to 0xFF", so they cannot be expressed (U9). Their numbers are
`Status.code` (Flags.lean). -/
inductive Status where
  | ok
  | illegalOpcode
  | badOperand
  | misuse
deriving DecidableEq, Repr

/-- R62: a response transaction: the status, the result words RW and the result bytes RB. -/
structure Response where
  sts : Status
  rw  : List Word
  rb  : List Byte
deriving DecidableEq, Repr

/-- What the outside can do to the core: send a command (R60), apply reset between commands, or apply reset while a
command runs (R222). Nothing else reaches it (R207). -/
inductive HostEvent where
  /-- A command transaction, of any shape (R60). -/
  | command (t : Transaction)
  /-- A reset that arrives between commands (R220, R222). -/
  | reset
  /-- A reset that arrives while the core runs the command `t`: "the command is abandoned" (R222). -/
  | resetDuring (t : Transaction)
deriving DecidableEq, Repr

/-! ### The architectural state -/

/-- R26: PHASE is a 2-bit register. -/
abbrev PhaseReg := BitVec 2

/-- R26, value 0: "after INIT or reset; no byte absorbed yet". -/
def phaseCreated : PhaseReg := 0

/-- R26, value 1: "at least one UPDATE with N ≥ 1 since INIT or reset". -/
def phaseUpdating : PhaseReg := 1

/-- R26, value 2: "FINALIZE has completed; the state is 'spent'". -/
def phaseFinalized : PhaseReg := 2

/-- R26, value 3: "(none)"; "no rule writes it, so it never occurs". -/
def phaseUndefined : PhaseReg := 3

/-- R20: "exactly this architectural state", the source's DigestState. -/
structure DigestState where
  /-- A, B, C, D: state registers 0 to 3. -/
  acc   : Accumulators
  /-- LEN: state registers 4 (LEN_LO) and 5 (LEN_HI); total bits absorbed (R23). -/
  len   : BitVec 64
  /-- BUF: the pending partial block, bytes 0 to 63 (R25). Its stale bytes are kept exactly (log entry 14). -/
  buf   : Block
  /-- PHASE: state register 6 (R26). -/
  phase : PhaseReg
deriving DecidableEq, Repr

/-- R22: the initial values (IV) that INIT and reset write. -/
def initialAccumulators : Accumulators := ⟨0x67452301, 0xEFCDAB89, 0x98BADCFE, 0x10325476⟩

/-- R31: the architectural state "After reset, and after every INIT" (log entry 13). -/
def DigestState.initial : DigestState where
  acc := initialAccumulators
  len := 0
  buf := Vector.replicate 64 0x00
  phase := phaseCreated

/-- One MD5C instance and its two ports. `engine` is all the state the spec gives the machine; `input` and `output` are
the MODEL's own fields: what the host will do, in order, and the responses the core has delivered, oldest first
(DESIGN CHOICE, log entry 1). -/
structure State where
  engine : DigestState
  input  : List HostEvent
  output : List Response
deriving DecidableEq, Repr

/-! ### Why a step stops -/

/-- The faults. An error of R201 to R203 is none of these: it is a response, and the machine goes on (R204, R208). -/
inductive Fault where
  /-- Raised by UPDATE and FINALIZE when they read PHASE = 3: "`stuck` if ever met (unreachable)"
  (spec/93_implementation_defined.md U8). Safe: no command writes that value, and the model stops (log entry 2). -/
  | phaseUndefined
deriving DecidableEq, Repr

/-- The refusals. -/
inductive Refusal where
  /-- Raised by `exec` for a command that has no meaning yet. No arm raises it in this model. Safe: the model stops. -/
  | notModelled (mnemonic : String)
deriving DecidableEq, Repr

/-! ### Reset -/

/-- R31, R220, R221: right after reset. The host has done nothing yet and no response has been delivered ("Reset
produces no response"). -/
def State.reset : State where
  engine := DigestState.initial
  input := []
  output := []

end Sys2Proof.Machine
end

