-- ==== Sys2Proof/Machine/Flags.lean ====
section
/-! DEFINITION. MD5C has "no condition flags and no predicate registers" (spec/10_state.md R28). What stands in their
place: the status code of a response, which is not stored (spec/30_encoding.md R68), and the reading of PHASE. -/

namespace Sys2Proof.Machine

/-- R68: the number of a status on the wire. -/
def Status.code : Status → BitVec 8
  | .ok => 0x00
  | .illegalOpcode => 0x01
  | .badOperand => 0x02
  | .misuse => 0x03

/-- R67, R201, R202: the status that reports a refusal of the decoder. -/
def Status.ofReject : DecodeReject → Status
  | .illegalOpcode => .illegalOpcode
  | .badOperand => .badOperand

/-- R203: "UPDATE and FINALIZE read it to detect misuse" (R26): the state is spent. -/
def DigestState.isFinalized (e : DigestState) : Bool := e.phase == phaseFinalized

/-- R26: PHASE holds one of its three named values. -/
def DigestState.phaseLegal (e : DigestState) : Bool := e.phase != phaseUndefined

end Sys2Proof.Machine
end

