-- ==== Sys2Proof/Machine/Operands.lean ====
section
/-! DEFINITION. The word/byte codec (spec/40_codec.md R100, R101), the views of LEN (spec/10_state.md R23, R24), the
numbered state registers (R20) and the message words of a block (spec/41_compress.md R119). -/

namespace Sys2Proof.Machine

/-! ### The codec -/

/-- R100 `decode_word(M, o)`: little-endian. Its precondition `o + 4 ≤ |M|` is an argument, so a call that violates it
cannot be written (U3; log entry 3). -/
def decodeWord {n : Nat} (m : Vector Byte n) (o : Nat) (h : o + 4 ≤ n) : Word :=
  m[o].setWidth 32
    ||| ((m[o + 1].setWidth 32) <<< 8)
    ||| ((m[o + 2].setWidth 32) <<< 16)
    ||| ((m[o + 3].setWidth 32) <<< 24)

/-- R101 `encode_word(w)`: `[ w[7:0], w[15:8], w[23:16], w[31:24] ]`. -/
def encodeWord (w : Word) : Vector Byte 4 :=
  #v[w.extractLsb' 0 8, w.extractLsb' 8 8, w.extractLsb' 16 8, w.extractLsb' 24 8]

/-- R119: `X[j] = decode_word(blk, 4j)`. -/
def messageWord (blk : Block) (j : Fin 16) : Word := decodeWord blk (4 * j.val) (by omega)

/-! ### LEN -/

/-- R23: `LEN_LO = LEN[31:0]`. -/
def lenLo (len : BitVec 64) : Word := len.extractLsb' 0 32

/-- R23: `LEN_HI = LEN[63:32]`. -/
def lenHi (len : BitVec 64) : Word := len.extractLsb' 32 32

/-- R24: `fill = LEN[8:3]`, "the number of bytes pending in BUF, 0 to 63"; never a register of its own. -/
def fill (len : BitVec 64) : Nat := (len.extractLsb' 3 6).toNat

/-- R24: `space = 64 - fill`, 1 to 64. -/
def space (len : BitVec 64) : Nat := 64 - fill len

/-- R141, R23: `LEN <- (LEN + 8*n) mod 2^64`. -/
def advanceLen (len : BitVec 64) (n : Nat) : BitVec 64 := len + BitVec.ofNat 64 (8 * n)

/-! ### The numbered registers -/

/-- R20: the state registers by number, 0 to 3 for A to D, 4 and 5 for the halves of LEN, 6 for PHASE. The numbers are
"the spec's own labels for the model; no host can address them". -/
def DigestState.stateReg (e : DigestState) : Fin 7 → Word
  | 0 => e.acc.a
  | 1 => e.acc.b
  | 2 => e.acc.c
  | 3 => e.acc.d
  | 4 => lenLo e.len
  | 5 => lenHi e.len
  | 6 => e.phase.setWidth 32

end Sys2Proof.Machine
end

