-- ==== Sys2Proof/Machine/Transform.lean ====
section
/-! DEFINITION. The Compression Transform, spec/41_compress.md R110 to R124. -/

namespace Sys2Proof.Machine

/-! ### Mixing functions -/

/-- R110, stage 1. -/
def mixF (b c d : Word) : Word := d ^^^ (b &&& (c ^^^ d))

/-- R111, stage 2. -/
def mixG (b c d : Word) : Word := c ^^^ (d &&& (b ^^^ c))

/-- R112, stage 3. -/
def mixH (b c d : Word) : Word := b ^^^ c ^^^ d

/-- R113, stage 4. -/
def mixI (b c d : Word) : Word := c ^^^ (b ||| ~~~d)

/-- `i div 16`, the stage of round i (R13), as the 0-based index `r` of R121. -/
def stage (i : Fin 64) : Fin 4 := ⟨i.val / 16, by omega⟩

/-- R121: `Fn(r)`. -/
def mix : Fin 4 → Word → Word → Word → Word
  | 0 => mixF
  | 1 => mixG
  | 2 => mixH
  | 3 => mixI

/-! ### Word arithmetic -/

/-- R114: `((x << s) OR (x >> (32 - s))) mod 2^32`, for `1 ≤ s ≤ 31`. Rounds use no other amount (R118); the model's
value there is named by no rule (U10; log entry 4). -/
def rotateLeft (x : Word) (s : Nat) : Word := (x <<< s) ||| (x >>> (32 - s))

/-! ### Lookup tables -/

/-- R116, `T[0]` to `T[15]`. -/
def additiveStage1 : List Word :=
  [0xD76AA478, 0xE8C7B756, 0x242070DB, 0xC1BDCEEE, 0xF57C0FAF, 0x4787C62A, 0xA8304613, 0xFD469501,
   0x698098D8, 0x8B44F7AF, 0xFFFF5BB1, 0x895CD7BE, 0x6B901122, 0xFD987193, 0xA679438E, 0x49B40821]

/-- R116, `T[16]` to `T[31]`. -/
def additiveStage2 : List Word :=
  [0xF61E2562, 0xC040B340, 0x265E5A51, 0xE9B6C7AA, 0xD62F105D, 0x02441453, 0xD8A1E681, 0xE7D3FBC8,
   0x21E1CDE6, 0xC33707D6, 0xF4D50D87, 0x455A14ED, 0xA9E3E905, 0xFCEFA3F8, 0x676F02D9, 0x8D2A4C8A]

/-- R116, `T[32]` to `T[47]`. -/
def additiveStage3 : List Word :=
  [0xFFFA3942, 0x8771F681, 0x6D9D6122, 0xFDE5380C, 0xA4BEEA44, 0x4BDECFA9, 0xF6BB4B60, 0xBEBFBC70,
   0x289B7EC6, 0xEAA127FA, 0xD4EF3085, 0x04881D05, 0xD9D4D039, 0xE6DB99E5, 0x1FA27CF8, 0xC4AC5665]

/-- R116, `T[48]` to `T[63]`. -/
def additiveStage4 : List Word :=
  [0xF4292244, 0x432AFF97, 0xAB9423A7, 0xFC93A039, 0x655B59C3, 0x8F0CCC92, 0xFFEFF47D, 0x85845DD1,
   0x6FA87E4F, 0xFE2CE6E0, 0xA3014314, 0x4E0811A1, 0xF7537E82, 0xBD3AF235, 0x2AD7D2BB, 0xEB86D391]

/-- R116: the read-only table T. -/
def additiveTable : List Word := additiveStage1 ++ additiveStage2 ++ additiveStage3 ++ additiveStage4

theorem additiveTable_length : additiveTable.length = 64 := rfl

/-- R116: `T[i]`. -/
def additive (i : Fin 64) : Word := additiveTable[i.val]'(by rw [additiveTable_length]; exact i.isLt)

/-- R117: `K[i]`, the message-word index of round i, by stage. -/
def wordIndex (i : Fin 64) : Fin 16 :=
  match stage i with
  | 0 => ⟨i.val % 16, by omega⟩
  | 1 => ⟨(5 * i.val + 1) % 16, by omega⟩
  | 2 => ⟨(3 * i.val + 5) % 16, by omega⟩
  | 3 => ⟨(7 * i.val) % 16, by omega⟩

/-- R118: the four rotation amounts of a stage, `SR[stage][0..3]`. -/
def stageRotations : Fin 4 → Vector Nat 4
  | 0 => #v[7, 12, 17, 22]
  | 1 => #v[5, 9, 14, 20]
  | 2 => #v[4, 11, 16, 23]
  | 3 => #v[6, 10, 15, 21]

/-- R118: `S[i] = SR[i div 16][i mod 4]`. -/
def rotationAmount (i : Fin 64) : Nat := (stageRotations (stage i))[i.val % 4]'(by omega)

/-! ### The transform -/

/-- R120: round i on the working variables (a, b, c, d). `+` discards the carry out of bit 31 (R115). -/
def roundStep (blk : Block) (i : Fin 64) (v : Accumulators) : Accumulators :=
  let f := mix (stage i) v.b v.c v.d
  let tmp := v.b + rotateLeft (v.a + f + messageWord blk (wordIndex i) + additive i) (rotationAmount i)
  ⟨v.d, tmp, v.b, v.c⟩

/-- R123's loop: the working variables after rounds 0 to k-1, from `v`. -/
def roundsUpTo (blk : Block) : (k : Nat) → k ≤ 64 → Accumulators → Accumulators
  | 0, _, v => v
  | k + 1, h, v => roundStep blk ⟨k, h⟩ (roundsUpTo blk k (by omega) v)

/-- R122: the feed-forward, word by word modulo 2^32. -/
def feedForward (s v : Accumulators) : Accumulators := ⟨s.a + v.a, s.b + v.b, s.c + v.c, s.d + v.d⟩

/-- R123 `Compress((A, B, C, D), blk)`: a total function of its two inputs (R124). -/
def compressBlock (s : Accumulators) (blk : Block) : Accumulators :=
  feedForward s (roundsUpTo blk 64 (Nat.le_refl 64) s)

/-! ### The fixed-role listing of R125 -/

/-- R125: round i with fixed roles: "the word written is a, d, c, b for `i mod 4` = 0, 1, 2, 3, and the other three
roles turn with it". -/
def fixedRoleStep (blk : Block) (i : Fin 64) (v : Accumulators) : Accumulators :=
  let f := mix (stage i)
  let x := messageWord blk (wordIndex i)
  let t := additive i
  let s := rotationAmount i
  match i.val % 4 with
  | 0 => { v with a := v.b + rotateLeft (v.a + f v.b v.c v.d + x + t) s }
  | 1 => { v with d := v.a + rotateLeft (v.d + f v.a v.b v.c + x + t) s }
  | 2 => { v with c := v.d + rotateLeft (v.c + f v.d v.a v.b + x + t) s }
  | _ => { v with b := v.c + rotateLeft (v.b + f v.c v.d v.a + x + t) s }

/-- R125: the working variables after rounds 0 to k-1 in the fixed-role form. -/
def fixedRolesUpTo (blk : Block) : (k : Nat) → k ≤ 64 → Accumulators → Accumulators
  | 0, _, v => v
  | k + 1, h, v => fixedRoleStep blk ⟨k, h⟩ (fixedRolesUpTo blk k (by omega) v)

end Sys2Proof.Machine
end

