-- ==== Sys2Proof/Machine/Ops.lean ====
section
/-! DEFINITION. The shared operations: completing a command with a response or an error (spec/00_scope.md R11,
spec/60_exceptions.md R204), reset (spec/70_reset_and_hazards.md R220), Absorb (spec/42_engine.md R140 to R145) and
FINALIZE's padding, length field and digest (R151 to R154). MD5C has no memory (spec/20_memory.md R40): BUF, indexed 0
to 63, is all the storage there is to read or write. -/

namespace Sys2Proof.Machine

/-! ### Completing a command -/

/-- R11 `respond(STS, RW, RB)`: deliver one response, after every earlier one (R62). -/
def State.respond (s : State) (sts : Status) (rw : List Word) (rb : List Byte) : State :=
  { s with output := s.output ++ [⟨sts, rw, rb⟩] }

/-- R11, R204 `raise E`: "`respond(E, [], [])` with no write to any state". MD5C's errors have no entry, no vector, no
saved state and no return (R200, R208, R209): this is the whole of taking one. -/
def State.raise (s : State) (e : Status) : State := s.respond e [] []

/-- R220, R222: reset writes every item of R20 and produces no response. What the host does next, and the responses it
already has, are not the core's to change (log entry 6). -/
def State.resetCore (s : State) : State := { s with engine := DigestState.initial }

/-- R203, R26: what UPDATE and FINALIZE do with PHASE before anything else: MISUSE in FINALIZED, stuck at the value that
never occurs (U8, log entry 2), and `body` otherwise: "CREATED and UPDATING behave the same for every command". -/
def State.unlessFinalized (s : State) (body : Host.Outcome State Fault Refusal) : Host.Outcome State Fault Refusal :=
  if s.engine.isFinalized then .next (s.raise .misuse)
  else if s.engine.phaseLegal then body
  else .fault .phaseUndefined

/-! ### BUF -/

/-- R11 `BUF[at + j] <- bs[j]` for j = 0, 1, ... in order. No rule indexes BUF beyond 63; such an index would write
nothing. -/
def writeBuf (buf : Block) : Nat → List Byte → Block
  | _, [] => buf
  | i, b :: bs => writeBuf (buf.setIfInBounds i b) (i + 1) bs

/-! ### Absorb -/

/-- R144's loop: the complete 64-byte blocks at the head of `m`, in order, and what is left after them. The fuel bounds
the iterations; the length of `m` is always enough (DEDUCED, log entry 12). -/
def fullBlocks : Nat → List Byte → List Block × List Byte
  | 0, m => ([], m)
  | fuel + 1, m =>
    if h : 64 ≤ m.length then
      let rest := fullBlocks fuel (m.drop 64)
      (⟨⟨m.take 64⟩, by simp; omega⟩ :: rest.1, rest.2)
    else ([], m)

/-- R140 `Absorb(M)`. fill and space are those of LEN before this Absorb; PHASE is neither read nor written. -/
def absorb (e : DigestState) (m : List Byte) : DigestState :=
  if m.isEmpty then e
  else if space e.len ≤ m.length then
    -- R143 to R145: complete the pending block, take further blocks straight from M, keep the remainder
    let completed := writeBuf e.buf (fill e.len) (m.take (space e.len))
    let direct := fullBlocks m.length (m.drop (space e.len))
    { e with
      len := advanceLen e.len m.length
      acc := direct.1.foldl compressBlock (compressBlock e.acc completed)
      buf := writeBuf completed 0 direct.2 }
  else
    -- R142: only buffer
    { e with
      len := advanceLen e.len m.length
      buf := writeBuf e.buf (fill e.len) m }

/-- The blocks one Absorb passes to Compress, in order: none when it only buffers (R142), else the completed block (R143)
and then the direct blocks (R144). -/
def absorbedBlocks (e : DigestState) (m : List Byte) : List Block :=
  if m.isEmpty then []
  else if space e.len ≤ m.length then
    writeBuf e.buf (fill e.len) (m.take (space e.len)) :: (fullBlocks m.length (m.drop (space e.len))).1
  else []

/-! ### Padding, length field and digest -/

/-- R151: `padlen = 56 - fill` if `fill < 56`, else `120 - fill`. -/
def padLen (fill : Nat) : Nat := if fill < 56 then 56 - fill else 120 - fill

/-- R152: "one `0x80` byte followed by `padlen - 1` bytes of `0x00`". -/
def padding (fill : Nat) : List Byte := 0x80 :: List.replicate (padLen fill - 1) 0x00

/-- R153: `encode_word(L[31:0]) ++ encode_word(L[63:32])`: "the low word then the high word, each little-endian". -/
def lengthField (l : BitVec 64) : List Byte := (encodeWord (lenLo l)).toList ++ (encodeWord (lenHi l)).toList

/-- R150: the two Absorbs of FINALIZE. The length field is the LEN captured before the padding (R151). -/
def padAndLength (e : DigestState) : DigestState :=
  absorb (absorb e (padding (fill e.len))) (lengthField e.len)

/-- R154: the digest, 16 bytes, of the accumulators. -/
def digestBytes (v : Accumulators) : List Byte :=
  (encodeWord v.a).toList ++ (encodeWord v.b).toList ++ (encodeWord v.c).toList ++ (encodeWord v.d).toList

end Sys2Proof.Machine
end

