-- ==== Sys2Proof/Machine/Codec.lean ====
section
/-! DEFINITION. The codec commands, spec/40_codec.md R103 and R104. -/

namespace Sys2Proof.Machine

/-- R103 DECW: `respond(OK, [decode_word(PB, 0)], [])`, in every PHASE (R216). -/
def execDecw (pb : Vector Byte 4) (s : State) : Host.Outcome State Fault Refusal :=
  .next (s.respond .ok [decodeWord pb 0 (by omega)] [])

/-- R104 ENCW: `respond(OK, [], encode_word(PW[0]))`, in every PHASE (R216). -/
def execEncw (w : Word) (s : State) : Host.Outcome State Fault Refusal :=
  .next (s.respond .ok [] (encodeWord w).toList)

end Sys2Proof.Machine
end

