-- ==== Sys2Proof/Machine/Compress.lean ====
section
/-! DEFINITION. The COMPRESS command, spec/41_compress.md R126. -/

namespace Sys2Proof.Machine

/-- R126 COMPRESS: one transform on the host's operands; the accumulators are not touched. In every PHASE (R216). -/
def execCompress (st : Accumulators) (blk : Block) (s : State) : Host.Outcome State Fault Refusal :=
  let r := compressBlock st blk
  .next (s.respond .ok [r.a, r.b, r.c, r.d] [])

end Sys2Proof.Machine
end

