-- ==== Sys2Proof/Machine/Engine.lean ====
section
/-! DEFINITION. The Digest Engine's commands, spec/42_engine.md R146 to R155. -/

namespace Sys2Proof.Machine

/-- R146 INIT: every item of R20 to its value in R31, in every PHASE. -/
def execInit (s : State) : Host.Outcome State Fault Refusal :=
  .next (s.resetCore.respond .ok [] [])

/-- R147, R148 UPDATE. A payload that is not N bytes is BAD_OPERAND (R202), which is found before MISUSE (R205); the
decoder lets none through (DEDUCED, log entry 11). -/
def execUpdate (n : BitVec 24) (pb : List Byte) (s : State) : Host.Outcome State Fault Refusal :=
  if pb.length = n.toNat then
    s.unlessFinalized
      (if n = 0 then .next (s.respond .ok [] [])
       else .next ({ s with engine := { absorb s.engine pb with phase := phaseUpdating } }.respond .ok [] []))
  else .next (s.raise .badOperand)

/-- R150 to R155 FINALIZE: pad, append the length, answer the digest, and leave PHASE = FINALIZED. -/
def execFinalize (s : State) : Host.Outcome State Fault Refusal :=
  s.unlessFinalized
    (let e := padAndLength s.engine
     .next ({ s with engine := { e with phase := phaseFinalized } }.respond .ok [] (digestBytes e.acc)))

end Sys2Proof.Machine
end

