-- ==== Sys2Proof/Machine/Dispatch.lean ====
section
/-! DEFINITION. One arm per command of spec/30_encoding.md R63. -/

namespace Sys2Proof.Machine

def exec (i : Instr) (s : State) : Host.Outcome State Fault Refusal :=
  match i with
  | .init => Sys2Proof.Machine.execInit s
  | .update n pb => Sys2Proof.Machine.execUpdate n pb s
  | .finalize => Sys2Proof.Machine.execFinalize s
  | .decw pb => Sys2Proof.Machine.execDecw pb s
  | .encw w => Sys2Proof.Machine.execEncw w s
  | .compress st blk => Sys2Proof.Machine.execCompress st blk s

end Sys2Proof.Machine
end

