-- ==== Sys2Proof/Machine/Fetch.lean ====
section
/-! DEFINITION. Taking one command transaction or one reset (spec/20_memory.md R44, R48; spec/30_encoding.md R67;
spec/70_reset_and_hazards.md R222). -/

namespace Sys2Proof.Machine

/-- R44, R67, R204: one command transaction, from its whole payload to its response. A transaction the decoder refuses is
answered with the refusal's status and writes no state. -/
def State.runTransaction (s : State) (t : Transaction) : Host.Outcome State Fault Refusal :=
  match decode t with
  | .ok i => exec i s
  | .error r => .next (s.raise (Status.ofReject r))

/-- One event of the host. R222: a reset during a command abandons it: no response, and the state is the reset state. -/
def State.takeEvent (s : State) (ev : HostEvent) : Host.Outcome State Fault Refusal :=
  match ev with
  | .command t => s.runTransaction t
  | .reset => .next s.resetCore
  | .resetDuring _ => .next s.resetCore

/-- R48: the host's events are taken one at a time, in the order the host issues them. While the host issues none, the
core waits and nothing changes (DESIGN CHOICE, log entry 1). -/
def State.takeNext (s : State) : Host.Outcome State Fault Refusal :=
  match s.input with
  | [] => .next s
  | ev :: rest => State.takeEvent { s with input := rest } ev

/-- `s` with a command transaction in front of everything else the host will do. -/
def State.withNextCommand (s : State) (t : Transaction) : State := { s with input := .command t :: s.input }

end Sys2Proof.Machine
end

