-- ==== Sys2Proof/Machine/Step.lean ====
section
/-! DEFINITION. The step. MD5C has no program counter and fetches nothing (spec/00_scope.md R6): a step takes the host's
next event, and "the whole command is one indivisible step of the core" (R12). -/

namespace Sys2Proof.Machine

/-- One step of the core. -/
def step (s : State) : Host.Outcome State Fault Refusal := s.takeNext

/-- `s` with the command whose bits are `w` as the host's next event, so that the very next step runs it (log entry 5). -/
def State.withFetchWord (s : State) (nbits w : Nat) : State := s.withNextCommand (Transaction.ofBits nbits w)

end Sys2Proof.Machine
end

