-- ==== Sys2Proof/Machine/Assembler.lean ====
section
/-! DEFINITION. The assembler of spec/30_encoding.md R70 and the pseudo-commands of R71, as the host uses them: from text
to the command transactions that reach the command port. Nothing here is part of the core. -/

namespace Sys2Proof.Machine

/-! ### Lines -/

/-- R70 `<bytes>`: `"ascii" | [b0, b1, ...] | zeros(n) | <bytes> ++ <bytes>` (R10). -/
inductive ByteExpr where
  | ascii (cs : List Char)
  | bytes (bs : List Byte)
  | zeros (n : Nat)
  | append (x y : ByteExpr)
deriving DecidableEq, Repr

/-- R10: the byte sequence an expression denotes. Characters above 127 are not ASCII and denote nothing. -/
def ByteExpr.eval : ByteExpr → Option (List Byte)
  | .ascii cs => if cs.all (fun c => c.toNat < 128) then some (cs.map fun c => BitVec.ofNat 8 c.toNat) else none
  | .bytes bs => some bs
  | .zeros n => some (List.replicate n 0x00)
  | .append x y =>
    match x.eval, y.eval with
    | some a, some b => some (a ++ b)
    | _, _ => none

/-- R70, R71: one line: a command of the port, or a pseudo-command. DECW's and COMPRESS's bytes are any byte expression of
4 and 64 bytes: R70 writes the one as a bracketed list and gives the other no form (DESIGN CHOICE, log entry 10). -/
inductive AsmLine where
  | init
  | update (x : ByteExpr)
  | finalize
  | decw (x : ByteExpr)
  | encw (w : Word)
  | compress (a b c d : Word) (x : ByteExpr)
  | updateLong (x : ByteExpr)
  | hash (x : ByteExpr)
deriving DecidableEq, Repr

/-! ### Transactions of a line -/

/-- R70 UPDATE: `CMD = (N << 8) | 0x02`, PB the bytes, PW empty. "N must be at most MAX_CHUNK." -/
def assembleUpdate (bs : List Byte) : Option Transaction :=
  if bs.length ≤ Config.maxChunk then some ⟨(BitVec.ofNat 32 bs.length <<< 8) ||| 0x02, [], bs⟩ else none

/-- R71: `M[0..c1)`, `M[c1..c2)`, ...: every chunk has `size` bytes but the last, which has from 1 to `size`; no chunk
for no bytes. The fuel bounds the number of chunks; the length of the sequence is always enough. -/
def chunksOf (size : Nat) : Nat → List Byte → List (List Byte)
  | 0, _ => []
  | fuel + 1, m => if m.isEmpty then [] else m.take size :: chunksOf size fuel (m.drop size)

/-- R71: the chunks of `UPDATE_LONG`. -/
def longChunks (m : List Byte) : List (List Byte) := chunksOf Config.maxChunk m.length m

/-- R71: `UPDATE_LONG <bytes>`. -/
def assembleUpdateLong (m : List Byte) : Option (List Transaction) := (longChunks m).mapM assembleUpdate

/-- R70: the transaction of INIT. -/
def assembleInit : Transaction := ⟨0x00000001, [], []⟩

/-- R70: the transaction of FINALIZE. -/
def assembleFinalize : Transaction := ⟨0x00000003, [], []⟩

/-- R71: `HASH <bytes>`: "`INIT`, then `UPDATE_LONG <bytes>`, then `FINALIZE`". -/
def assembleHash (m : List Byte) : Option (List Transaction) :=
  (assembleUpdateLong m).map fun ts => assembleInit :: ts ++ [assembleFinalize]

/-- R70, R71: the transactions of a line; `none` for a line the syntax does not allow (an operand that is not 4 or 64
bytes, a chunk above MAX_CHUNK, a character that is not ASCII). -/
def AsmLine.assemble : AsmLine → Option (List Transaction)
  | .init => some [assembleInit]
  | .update x => (x.eval.bind assembleUpdate).map ([·])
  | .finalize => some [assembleFinalize]
  | .decw x => x.eval.bind fun bs => if bs.length = 4 then some [⟨0x00000010, [], bs⟩] else none
  | .encw w => some [⟨0x00000011, [w], []⟩]
  | .compress a b c d x =>
    x.eval.bind fun bs => if bs.length = 64 then some [⟨0x00000012, [a, b, c, d], bs⟩] else none
  | .updateLong x => x.eval.bind assembleUpdateLong
  | .hash x => x.eval.bind assembleHash

/-- The transactions of a program, line after line; `none` for the whole program where one line has none (DESIGN CHOICE,
log entry 10: R70 does not say what a bad line does to the others). -/
def assemble (lines : List AsmLine) : Option (List Transaction) := (lines.mapM AsmLine.assemble).map List.flatten

/-! ### From text to lines (log entry 10) -/

/-- The words and signs of R70's syntax. -/
inductive Token where
  | name (cs : List Char)
  | num (n : Nat)
  | str (cs : List Char)
  | lbrack | rbrack | lparen | rparen | comma | plusPlus
deriving DecidableEq, Repr

/-- The value of a hexadecimal digit. -/
def hexDigit (c : Char) : Option Nat :=
  if '0' ≤ c ∧ c ≤ '9' then some (c.toNat - '0'.toNat)
  else if 'a' ≤ c ∧ c ≤ 'f' then some (c.toNat - 'a'.toNat + 10)
  else if 'A' ≤ c ∧ c ≤ 'F' then some (c.toNat - 'A'.toNat + 10)
  else none

/-- The value of a decimal digit. -/
def decDigit (c : Char) : Option Nat := if '0' ≤ c ∧ c ≤ '9' then some (c.toNat - '0'.toNat) else none

/-- The number that a text begins with, digit by digit in a base, and the rest of the text. -/
def readDigits (digit : Char → Option Nat) (base acc : Nat) : List Char → Nat × List Char
  | [] => (acc, [])
  | c :: cs =>
    match digit c with
    | some d => readDigits digit base (base * acc + d) cs
    | none => (acc, c :: cs)

/-- The longest prefix of a text whose characters pass a test, and the rest. -/
def readWhile (test : Char → Bool) (cs : List Char) : List Char × List Char := (cs.takeWhile test, cs.dropWhile test)

/-- A character of a mnemonic or of `zeros`. -/
def isNameChar (c : Char) : Bool := ('A' ≤ c ∧ c ≤ 'Z') ∨ ('a' ≤ c ∧ c ≤ 'z') ∨ c = '_'

/-- One line as tokens; `;` starts a comment. "Numbers are hexadecimal with `0x` or decimal." -/
def tokens : Nat → List Char → Option (List Token)
  | 0, cs => if cs.isEmpty then some [] else none
  | fuel + 1, cs =>
    match cs with
    | [] => some []
    | ';' :: _ => some []
    | ' ' :: rest => tokens fuel rest
    | '\t' :: rest => tokens fuel rest
    | '[' :: rest => (tokens fuel rest).map (Token.lbrack :: ·)
    | ']' :: rest => (tokens fuel rest).map (Token.rbrack :: ·)
    | '(' :: rest => (tokens fuel rest).map (Token.lparen :: ·)
    | ')' :: rest => (tokens fuel rest).map (Token.rparen :: ·)
    | ',' :: rest => (tokens fuel rest).map (Token.comma :: ·)
    | '+' :: '+' :: rest => (tokens fuel rest).map (Token.plusPlus :: ·)
    | '"' :: rest =>
      let s := readWhile (· != '"') rest
      match s.2 with
      | '"' :: rest' => (tokens fuel rest').map (Token.str s.1 :: ·)
      | _ => none
    | '0' :: 'x' :: c :: rest =>
      match hexDigit c with
      | some d =>
        let n := readDigits hexDigit 16 d rest
        (tokens fuel n.2).map (Token.num n.1 :: ·)
      | none => none
    | c :: rest =>
      match decDigit c with
      | some d =>
        let n := readDigits decDigit 10 d rest
        (tokens fuel n.2).map (Token.num n.1 :: ·)
      | none =>
        let w := readWhile isNameChar (c :: rest)
        if w.1.isEmpty then none else (tokens fuel w.2).map (Token.name w.1 :: ·)

/-- A number as a word; `none` at 2^32 and above. -/
def wordOfNat (n : Nat) : Option Word := if n < 2 ^ 32 then some (BitVec.ofNat 32 n) else none

/-- `b0, b1, ...]`: the numbers of a byte list up to its closing bracket. -/
def parseByteList : List Token → Option (List Byte × List Token)
  | .num n :: .rbrack :: rest => if n < 256 then some ([BitVec.ofNat 8 n], rest) else none
  | .num n :: .comma :: rest =>
    if n < 256 then (parseByteList rest).map fun r => (BitVec.ofNat 8 n :: r.1, r.2) else none
  | _ => none

/-- One byte expression without `++`. -/
def parseByteAtom : List Token → Option (ByteExpr × List Token)
  | .str cs :: rest => some (.ascii cs, rest)
  | .lbrack :: .rbrack :: rest => some (.bytes [], rest)
  | .lbrack :: rest => (parseByteList rest).map fun r => (.bytes r.1, r.2)
  | .name ['z', 'e', 'r', 'o', 's'] :: .lparen :: .num n :: .rparen :: rest => some (.zeros n, rest)
  | _ => none

/-- A byte expression that takes up the rest of a line. -/
def parseByteExpr : Nat → List Token → Option ByteExpr
  | 0, _ => none
  | fuel + 1, ts =>
    match parseByteAtom ts with
    | some (x, []) => some x
    | some (x, .plusPlus :: rest) => (parseByteExpr fuel rest).map (ByteExpr.append x)
    | _ => none

/-- R70, R71: one line of tokens. The operand of DECW and the last operand of COMPRESS may be any byte expression: a
string, a list, `zeros(n)` or a `++` of these (DESIGN CHOICE, log entry 10: R70 shows only `[b0, b1, b2, b3]` for DECW, and
`<64 bytes>` without a form for COMPRESS). -/
def parseLine (ts : List Token) : Option AsmLine :=
  match ts with
  | [.name ['I', 'N', 'I', 'T']] => some .init
  | [.name ['F', 'I', 'N', 'A', 'L', 'I', 'Z', 'E']] => some .finalize
  | [.name ['E', 'N', 'C', 'W'], .num w] => (wordOfNat w).map .encw
  | .name ['U', 'P', 'D', 'A', 'T', 'E'] :: rest => (parseByteExpr ts.length rest).map .update
  | .name ['D', 'E', 'C', 'W'] :: rest => (parseByteExpr ts.length rest).map .decw
  | .name ['C', 'O', 'M', 'P', 'R', 'E', 'S', 'S'] :: .num a :: .comma :: .num b :: .comma :: .num c :: .comma ::
      .num d :: .comma :: rest =>
    match wordOfNat a, wordOfNat b, wordOfNat c, wordOfNat d with
    | some a, some b, some c, some d => (parseByteExpr ts.length rest).map (.compress a b c d)
    | _, _, _, _ => none
  | .name ['U', 'P', 'D', 'A', 'T', 'E', '_', 'L', 'O', 'N', 'G'] :: rest =>
    (parseByteExpr ts.length rest).map .updateLong
  | .name ['H', 'A', 'S', 'H'] :: rest => (parseByteExpr ts.length rest).map .hash
  | _ => none

/-- The lines of a text. -/
def splitLines : List Char → List (List Char)
  | [] => [[]]
  | c :: cs =>
    match splitLines cs with
    | [] => [[c]]
    | l :: ls => if c = '\n' then [] :: l :: ls else (c :: l) :: ls

/-- R70: "one command per line"; lines that hold no token are skipped. One line that is not of the syntax rejects the
whole text (DESIGN CHOICE, log entry 10: R70 does not say what a bad line does to the others). -/
def parseProgram (text : List Char) : Option (List AsmLine) :=
  ((splitLines text).mapM fun l => tokens (l.length + 1) l).bind fun ts =>
    (ts.filter fun t => !t.isEmpty).mapM parseLine

/-- R70, R71: a text as the transactions the host sends. -/
def assembleText (text : List Char) : Option (List Transaction) := (parseProgram text).bind assemble

end Sys2Proof.Machine
end

