-- ==== Sys2Proof/Machine/Platform.lean ====
section
/-! DEFINITION. A platform of NUM_INSTANCES independent MD5C instances (spec/10_state.md R33, spec/60_exceptions.md R213).
Each has its own state, command port and response port, so each is a whole `State`. -/

namespace Sys2Proof.Machine

/-- R213: the instances of one platform. "An instance has no identifier register": its place in the vector is the
platform's label, not state of the core. -/
structure Platform where
  cores : Vector State Config.numInstances
deriving DecidableEq, Repr

/-- R213: "Each instance is ready after reset." -/
def Platform.reset : Platform := ⟨Vector.replicate Config.numInstances State.reset⟩

/-- One step of core `k`. Which core steps next is the caller's choice: "no ordering relation holds or is needed between
them" (R48; log entry 7). -/
def Platform.stepAt (p : Platform) (k : Fin Config.numInstances) : Host.Outcome Platform Fault Refusal :=
  match step p.cores[k] with
  | .next s => .next ⟨p.cores.set k s⟩
  | .fault r => .fault r
  | .refused r => .refused r

end Sys2Proof.Machine
end

