-- ==== Sys2Proof/Machine/Timing.lean ====
section
/-! DEFINITION. How many transforms a command performs, and the time they take in units the spec leaves open
(spec/70_reset_and_hazards.md R226). "No rule of this spec depends on time": `exec` uses none of this. -/

namespace Sys2Proof.Machine

/-- The blocks a command passes to Compress, in order. UPDATE's are those of its Absorb, unless it answers an error or
has N = 0 (R147, R148); FINALIZE's are those of its two Absorbs (R150); COMPRESS's is its operand (R126). -/
def transformBlocks (i : Instr) (s : State) : List Block :=
  match i with
  | .init => []
  | .update n pb =>
    if pb.length = n.toNat ∧ s.engine.isFinalized = false ∧ s.engine.phaseLegal = true then absorbedBlocks s.engine pb
    else []
  | .finalize =>
    if s.engine.isFinalized = false ∧ s.engine.phaseLegal = true then
      let pad := padding (fill s.engine.len)
      absorbedBlocks s.engine pad ++ absorbedBlocks (absorb s.engine pad) (lengthField s.engine.len)
    else []
  | .decw _ => []
  | .encw _ => []
  | .compress _ blk => [blk]

/-- R226: the time a command spends in transforms, each taking the OPEN `BLOCK_LATENCY` (log entry 8). -/
def transformTime (i : Instr) (s : State) : Nat := (transformBlocks i s).length * Config.blockLatency

end Sys2Proof.Machine
end

