-- ==== Sys2Proof/Machine/Transport.lean ====
section
/-! DEFINITION. The OPEN parameter `CMD_TRANSPORT` (spec/00_scope.md R7; spec/30_encoding.md R60, R69) as a named argument,
and the form of it that R69 sketches: the payload after CMD. The core takes the transaction whole (R60), so nothing else
of the model depends on either. -/

namespace Sys2Proof.Machine

/-! ### Any transport that delivers what is sent -/

/-- R7 `CMD_TRANSPORT`: what travels on the two ports, and that what is sent is what arrives (DESIGN CHOICE, log
entry 9). -/
structure CmdTransport where
  /-- What one command transaction is on the wires: beats, widths and handshakes are the transport's own. -/
  CommandFrame : Type
  /-- What one response transaction is on the wires. -/
  ResponseFrame : Type
  sendCommand : Transaction → CommandFrame
  takeCommand : CommandFrame → Transaction
  sendResponse : Response → ResponseFrame
  takeResponse : ResponseFrame → Response
  command_arrives : ∀ t, takeCommand (sendCommand t) = t
  response_arrives : ∀ r, takeResponse (sendResponse r) = r

/-- The core takes one command off the wires and runs it. -/
def State.runFrame (τ : CmdTransport) (s : State) (f : τ.CommandFrame) : Host.Outcome State Fault Refusal :=
  s.runTransaction (τ.takeCommand f)

/-- The responses as they travel back, in order (R62). -/
def State.responseFrames (τ : CmdTransport) (s : State) : List τ.ResponseFrame := s.output.map τ.sendResponse

/-! ### The payload after CMD (R69) -/

/-- R45's widths, one unit a beat: a word (CMD or payload) or a payload byte (DESIGN CHOICE, log entry 9). -/
inductive Beat where
  | word (w : Word)
  | byte (b : Byte)
deriving DecidableEq, Repr

/-- R69: the payload after CMD: the words, then the bytes (that order is log entry 9's). -/
def beatsOf (t : Transaction) : List Beat := .word t.cmd :: (t.pw.map .word ++ t.pb.map .byte)

/-- The next n beats as words, and the beats after them; `none` where they are not n words. -/
def takeWords : Nat → List Beat → Option (List Word × List Beat)
  | 0, bs => some ([], bs)
  | n + 1, .word w :: bs => (takeWords n bs).map fun r => (w :: r.1, r.2)
  | _ + 1, _ => none

/-- The next n beats as bytes, and the beats after them; `none` where they are not n bytes. -/
def takeBytes : Nat → List Beat → Option (List Byte × List Beat)
  | 0, bs => some ([], bs)
  | n + 1, .byte b :: bs => (takeBytes n bs).map fun r => (b :: r.1, r.2)
  | _ + 1, _ => none

/-- R69: "a transport that sends the payload after CMD knows how many beats to take": one transaction off the front of a
stream of beats, its payload lengths taken from CMD alone, and the beats after it. -/
def takeTransaction : List Beat → Option (Transaction × List Beat)
  | .word cmd :: bs =>
    (takeWords (payloadShape cmd).1 bs).bind fun p =>
      (takeBytes (payloadShape cmd).2 p.2).map fun q => (⟨cmd, p.1, q.1⟩, q.2)
  | _ => none

end Sys2Proof.Machine
end

