-- ==== Sys2Proof/Safety.lean ====
section
/-! DEFINITION. What a safe run is, and the terms claims use: the message an instance has absorbed (spec/00_scope.md R13),
the state that stands for it (spec/10_state.md R27), and the MD5 of a whole message (R2; spec/42_engine.md R150 to R154). -/

namespace Sys2Proof.Machine

/-- R26: PHASE never holds the value no rule writes. The one fault of the model is excluded by it. -/
def State.Safe (s : State) : Prop := s.engine.phase ≠ phaseUndefined

/-- PHASE is CREATED or UPDATING: the engine accepts UPDATE and FINALIZE (R157). -/
def State.Live (s : State) : Prop := s.engine.phase = phaseCreated ∨ s.engine.phase = phaseUpdating

/-- The values of R31, written out. -/
structure DigestState.HasResetValues (e : DigestState) : Prop where
  a : e.acc.a = 0x67452301
  b : e.acc.b = 0xEFCDAB89
  c : e.acc.c = 0x98BADCFE
  d : e.acc.d = 0x10325476
  lenLo : lenLo e.len = 0
  lenHi : lenHi e.len = 0
  buf : ∀ (j : Nat) (h : j < 64), e.buf[j] = 0x00
  phase : e.phase = 0

/-- Two engine states that differ at most in stale bytes, `BUF[fill..64)` (R25). -/
structure DigestState.SameButStale (e e' : DigestState) : Prop where
  acc : e.acc = e'.acc
  len : e.len = e'.len
  pending : e.buf.toList.take (fill e.len) = e'.buf.toList.take (fill e'.len)
  phase : e.phase = e'.phase

/-- R66's legal OPC values, by number. -/
def LegalOpc (opc : Byte) : Prop :=
  opc = 0x01 ∨ opc = 0x02 ∨ opc = 0x03 ∨ opc = 0x10 ∨ opc = 0x11 ∨ opc = 0x12

/-- The three checks of R64 as R202 lists them, by number, for a transaction whose OPC is legal. -/
structure WellShaped (t : Transaction) : Prop where
  /-- ARG is 0 for INIT, FINALIZE, DECW, ENCW and COMPRESS. -/
  arg : opcField t.cmd ≠ 0x02 → argField t.cmd = 0
  /-- |PW| is 1 for ENCW, 4 for COMPRESS and 0 for INIT, UPDATE, FINALIZE and DECW. -/
  pw : t.pw.length = if opcField t.cmd = 0x11 then 1 else if opcField t.cmd = 0x12 then 4 else 0
  /-- |PB| is N for UPDATE, 4 for DECW, 64 for COMPRESS and 0 for INIT, FINALIZE and ENCW. -/
  pb : t.pb.length =
    if opcField t.cmd = 0x02 then (argField t.cmd).toNat
    else if opcField t.cmd = 0x10 then 4 else if opcField t.cmd = 0x12 then 64 else 0

/-- The complete 64-byte blocks of a message, in order. -/
def blocksOf (m : List Byte) : List Block := (fullBlocks m.length m).1

/-- Folding Compress from the IV over blocks, in order (R27, item 4). -/
def foldBlocks (bs : List Block) : Accumulators := bs.foldl compressBlock initialAccumulators

/-- R27 with R26: the state of an instance in CREATED or UPDATING whose message, "the concatenation, in order, of the
payloads of every successful UPDATE since the last INIT or reset" (R13), is `m`. -/
structure DigestState.Holds (e : DigestState) (m : List Byte) : Prop where
  /-- R27.2: `LEN = (8 × |message|) mod 2^64`. -/
  len : e.len = BitVec.ofNat 64 (8 * m.length)
  /-- R27.3: "`BUF[0..fill)` equals the last fill bytes of the message". -/
  buf : e.buf.toList.take (fill e.len) = m.drop (m.length - fill e.len)
  /-- R27.4: the fold of Compress "over the first `floor(|message| / 64)` blocks of the message". -/
  acc : e.acc = foldBlocks (blocksOf m)
  /-- R26: CREATED while "no byte absorbed yet", UPDATING after that. -/
  phase : e.phase = if m = [] then phaseCreated else phaseUpdating

/-- What an instance stands for: a message (CREATED or UPDATING), or nothing, its state being spent (FINALIZED). -/
def DigestState.Tracks (e : DigestState) : Option (List Byte) → Prop
  | some m => e.Holds m
  | none => e.phase = phaseFinalized

/-- The message after a command: INIT starts an empty one, UPDATE extends it, FINALIZE ends it, and the stateless
commands leave it (R13, R157). -/
def messageAfterCommand (msg : Option (List Byte)) : Instr → Option (List Byte)
  | .init => some []
  | .update _ pb => msg.map (· ++ pb)
  | .finalize => none
  | .decw _ => msg
  | .encw _ => msg
  | .compress _ _ => msg

/-- The message after one event of the host: a refused transaction leaves it (R204), a reset starts an empty one (R220,
R222). -/
def messageAfter (msg : Option (List Byte)) : HostEvent → Option (List Byte)
  | .command t =>
    match decode t with
    | .ok i => messageAfterCommand msg i
    | .error _ => msg
  | .reset => some []
  | .resetDuring _ => some []

/-- The padded message of MD5: the message, one `0x80`, zeros to 56 bytes modulo 64, and the 8-byte bit length modulo
2^64 (R151 to R153, R159). -/
def paddedMessage (m : List Byte) : List Byte :=
  m ++ padding (m.length % 64) ++ lengthField (BitVec.ofNat 64 (8 * m.length))

/-- The MD5 of a whole message, with no buffering and no chunks: the reference the incremental engine is held to. -/
def md5 (m : List Byte) : List Byte := digestBytes (foldBlocks (blocksOf (paddedMessage m)))

/-- The UPDATE command that carries a chunk (R70). -/
def updateOf (chunk : List Byte) : Instr := .update (BitVec.ofNat 24 chunk.length) chunk

/-- The events by which a host sends commands, one after the other. -/
def commandEvents (is : List Instr) : List HostEvent := is.map fun i => .command (encode i)

/-- How many of the host's events are commands that complete, each with its one response (R62). -/
def commandCount (evs : List HostEvent) : Nat := (evs.filter fun | .command _ => true | _ => false).length

/-- The response of a command that answers OK and returns nothing. -/
def okResponse : Response := ⟨.ok, [], []⟩

end Sys2Proof.Machine
end

