-- ==== Sys2Proof/Certificates/Slice0/Obligations.lean ====
section
/-! DEFINITION. The statements for the provers. Each docstring names the rules it formalises. -/

open Sys2Proof Sys2Proof.Machine

/-! ### Encoding -/

/-- R61, R63 to R65: every well-formed command comes back from its own transaction, with every operand. -/
def Obligations.DecodeOfEncode : Prop :=
  ∀ i : Instr, i.wellFormed = true → decode (encode i) = .ok i

/-- R67: a transaction that decodes has one command, and that command's transaction is this one: no bit of CMD and no
unit of the payload is ignored. -/
def Obligations.EncodeOfDecode : Prop :=
  ∀ (t : Transaction) (i : Instr), decode t = .ok i → i.wellFormed = true ∧ encode i = t

/-- R67: decoding is total: an illegal opcode, a bad operand, or one of the six commands with its operands. -/
def Obligations.DecodeIsTotal : Prop :=
  ∀ t : Transaction,
    (¬ LegalOpc (opcField t.cmd) → decode t = .error .illegalOpcode)
      ∧ (LegalOpc (opcField t.cmd) → ¬ WellShaped t → decode t = .error .badOperand)
      ∧ (LegalOpc (opcField t.cmd) → WellShaped t → ∃ i, decode t = .ok i
          ∧ (opcField t.cmd = 0x01 → i = .init)
          ∧ (opcField t.cmd = 0x02 → i = .update (argField t.cmd) t.pb)
          ∧ (opcField t.cmd = 0x03 → i = .finalize)
          ∧ (opcField t.cmd = 0x10 → ∃ pb, i = .decw pb ∧ pb.toList = t.pb)
          ∧ (opcField t.cmd = 0x11 → ∃ w, i = .encw w ∧ [w] = t.pw)
          ∧ (opcField t.cmd = 0x12 →
              ∃ st blk, i = .compress st blk ∧ [st.a, st.b, st.c, st.d] = t.pw ∧ blk.toList = t.pb))

/-- R63, R70: command words written out by hand, one for each row of the opcode table, and two illegal ones. -/
def Obligations.WrittenOutWordsDecode : Prop :=
  decode ⟨0x00000001, [], []⟩ = .ok .init
    ∧ decode ⟨0x00000302, [], [0x61, 0x62, 0x63]⟩ = .ok (.update 3 [0x61, 0x62, 0x63])
    ∧ decode ⟨0x00000003, [], []⟩ = .ok .finalize
    ∧ decode ⟨0x00000010, [], [0x78, 0x56, 0x34, 0x12]⟩ = .ok (.decw #v[0x78, 0x56, 0x34, 0x12])
    ∧ decode ⟨0x00000011, [0x67452301], []⟩ = .ok (.encw 0x67452301)
    ∧ decode ⟨0x00000012, [1, 2, 3, 4], List.replicate 64 0x61⟩
        = .ok (.compress ⟨1, 2, 3, 4⟩ (Vector.replicate 64 0x61))
    ∧ decode ⟨0x00000004, [], []⟩ = .error .illegalOpcode
    ∧ decode ⟨0x00000101, [], []⟩ = .error .badOperand

/-! ### Codec -/

/-- R102, which the spec marks as its own inference ("[derived: from rules R100 and R101]"): the two codec functions
are inverse to each other. -/
def Obligations.CodecFunctionsAreInverse : Prop :=
  (∀ w : Word, decodeWord (encodeWord w) 0 (by decide) = w)
    ∧ (∀ m : Vector Byte 4, encodeWord (decodeWord m 0 (by decide)) = m)

/-- R119: message word j is `decode_word(blk, 4j)`. Its bytes are 4j to 4j+3 of the block, the lowest in bits 7:0, as
R119 says of X[0] and X[15]. -/
def Obligations.MessageWordsAreLittleEndian : Prop :=
  ∀ (blk : Block) (j : Fin 16),
    messageWord blk j = decodeWord blk (4 * j.val) (by omega)
      ∧ ∀ k : Fin 4, (messageWord blk j).extractLsb' (8 * k.val) 8 = blk[4 * j.val + k.val]

/-- R103, R100: DECW completes in every state; its word is the number its four bytes write in base 256, the first byte
least significant. Nothing but the response is new. -/
def Obligations.DecwAnswersItsWord : Prop :=
  ∀ (pb : Vector Byte 4) (s : State), ∃ w : Word,
    exec (.decw pb) s = .next { s with output := s.output ++ [⟨.ok, [w], []⟩] }
      ∧ w.toNat = pb[0].toNat + 2 ^ 8 * pb[1].toNat + 2 ^ 16 * pb[2].toNat + 2 ^ 24 * pb[3].toNat

/-- R104, R101: ENCW completes in every state; its bytes are the base-256 digits of the word, least significant first. -/
def Obligations.EncwAnswersItsBytes : Prop :=
  ∀ (w : Word) (s : State), ∃ rb : List Byte,
    exec (.encw w) s = .next { s with output := s.output ++ [⟨.ok, [], rb⟩] }
      ∧ rb.map BitVec.toNat
          = [w.toNat % 256, w.toNat / 2 ^ 8 % 256, w.toNat / 2 ^ 16 % 256, w.toNat / 2 ^ 24 % 256]

/-! ### Compression Transform -/

/-- R110 to R113: the mixing functions, as formulas and bit by bit (R113's truth table follows from the formulas, as
the spec marks it). -/
def Obligations.MixingFunctionsBitByBit : Prop :=
  ∀ b c d : Word,
    mixF b c d = d ^^^ (b &&& (c ^^^ d)) ∧ mixG b c d = c ^^^ (d &&& (b ^^^ c))
      ∧ mixH b c d = b ^^^ c ^^^ d ∧ mixI b c d = c ^^^ (b ||| (d ^^^ 0xFFFFFFFF))
      ∧ ∀ n : Nat, n < 32 →
          (mixF b c d).getLsbD n = (if b.getLsbD n then c.getLsbD n else d.getLsbD n)
            ∧ (mixG b c d).getLsbD n = (if d.getLsbD n then b.getLsbD n else c.getLsbD n)
            ∧ (mixH b c d).getLsbD n = ((b.getLsbD n ^^ c.getLsbD n) ^^ d.getLsbD n)
            ∧ (mixI b c d).getLsbD n = (c.getLsbD n ^^ (b.getLsbD n || !d.getLsbD n))

/-- R114: the left rotation, as a formula and bit by bit, and the amounts that occur. -/
def Obligations.RotateLeftMovesBits : Prop :=
  (∀ (x : Word) (s : Nat), 1 ≤ s → s ≤ 31 →
      rotateLeft x s = ((x <<< s) ||| (x >>> (32 - s)))
        ∧ ∀ (n : Nat) (_ : n < 32), (rotateLeft x s)[n] = x[(n + 32 - s) % 32]'(Nat.mod_lt _ (by decide)))
    ∧ ∀ s : Nat, (∃ i, rotationAmount i = s) ↔ s ∈ [4, 5, 6, 7, 9, 10, 11, 12, 14, 15, 16, 17, 20, 21, 22, 23]

/-- R117, R118: the message-word schedule K, each stage reading every message word exactly once, and the rotation
schedule S. -/
def Obligations.RoundSchedules : Prop :=
  (∀ i : Fin 64,
      (i.val < 16 → (wordIndex i).val = i.val % 16)
        ∧ (16 ≤ i.val → i.val < 32 → (wordIndex i).val = (5 * i.val + 1) % 16)
        ∧ (32 ≤ i.val → i.val < 48 → (wordIndex i).val = (3 * i.val + 5) % 16)
        ∧ (48 ≤ i.val → (wordIndex i).val = 7 * i.val % 16))
    ∧ (∀ (r : Fin 4) (j : Fin 16), ((List.finRange 64).filter fun i => i.val / 16 = r.val ∧ wordIndex i = j).length = 1)
    ∧ (List.finRange 64).map rotationAmount
        = (List.replicate 4 [7, 12, 17, 22]).flatten ++ (List.replicate 4 [5, 9, 14, 20]).flatten
          ++ (List.replicate 4 [4, 11, 16, 23]).flatten ++ (List.replicate 4 [6, 10, 15, 21]).flatten

/-- R125, which the spec marks as its own inference ("[derived: from rules R116 to R121, by induction on i]"): the
rename form of the rounds and RFC 1321's fixed-role form give the same Compress. -/
def Obligations.FixedRolesGiveTheSameCompress : Prop :=
  ∀ (s : Accumulators) (blk : Block),
    compressBlock s blk = feedForward s (fixedRolesUpTo blk 64 (Nat.le_refl 64) s)

/-- R120 to R123: Compress written out: 64 rounds from the input state, each with the mixing function of its stage, the
message word K[i], the word T[i] and the rotation S[i], and then the feed-forward. T is the 64 literal words of R116's
table ("A model uses the literal words"); F, G, H, I, `rotate_left`, K, S and the message words are those that
MixingFunctionsBitByBit, RotateLeftMovesBits, RoundSchedules and MessageWordsAreLittleEndian pin. -/
def Obligations.CompressIsItsPseudocode : Prop :=
  (List.finRange 64).map additive
      = [0xD76AA478, 0xE8C7B756, 0x242070DB, 0xC1BDCEEE, 0xF57C0FAF, 0x4787C62A, 0xA8304613, 0xFD469501,
         0x698098D8, 0x8B44F7AF, 0xFFFF5BB1, 0x895CD7BE, 0x6B901122, 0xFD987193, 0xA679438E, 0x49B40821]
        ++ [0xF61E2562, 0xC040B340, 0x265E5A51, 0xE9B6C7AA, 0xD62F105D, 0x02441453, 0xD8A1E681, 0xE7D3FBC8,
            0x21E1CDE6, 0xC33707D6, 0xF4D50D87, 0x455A14ED, 0xA9E3E905, 0xFCEFA3F8, 0x676F02D9, 0x8D2A4C8A]
        ++ [0xFFFA3942, 0x8771F681, 0x6D9D6122, 0xFDE5380C, 0xA4BEEA44, 0x4BDECFA9, 0xF6BB4B60, 0xBEBFBC70,
            0x289B7EC6, 0xEAA127FA, 0xD4EF3085, 0x04881D05, 0xD9D4D039, 0xE6DB99E5, 0x1FA27CF8, 0xC4AC5665]
        ++ [0xF4292244, 0x432AFF97, 0xAB9423A7, 0xFC93A039, 0x655B59C3, 0x8F0CCC92, 0xFFEFF47D, 0x85845DD1,
            0x6FA87E4F, 0xFE2CE6E0, 0xA3014314, 0x4E0811A1, 0xF7537E82, 0xBD3AF235, 0x2AD7D2BB, 0xEB86D391]
    ∧ ∀ (s : Accumulators) (blk : Block),
        let round (v : Accumulators) (i : Fin 64) : Accumulators :=
          let f :=
            if i.val < 16 then mixF v.b v.c v.d
            else if i.val < 32 then mixG v.b v.c v.d
            else if i.val < 48 then mixH v.b v.c v.d
            else mixI v.b v.c v.d
          let x := decodeWord blk (4 * (wordIndex i).val) (by omega)
          let tmp := v.b + rotateLeft (v.a + f + x + additive i) (rotationAmount i)
          ⟨v.d, tmp, v.b, v.c⟩
        let v := Fin.foldl 64 round s
        compressBlock s blk = ⟨s.a + v.a, s.b + v.b, s.c + v.c, s.d + v.d⟩

/-- R126: COMPRESS completes in every state with the transform of its operands, and changes nothing but the
responses. The transform is R123 written out by CompressIsItsPseudocode. -/
def Obligations.CompressAnswersItsTransform : Prop :=
  ∀ (st : Accumulators) (blk : Block) (s : State),
    let r := compressBlock st blk
    exec (.compress st blk) s = .next { s with output := s.output ++ [⟨.ok, [r.a, r.b, r.c, r.d], []⟩] }

/-! ### Registers -/

/-- R22: the IV, and its bytes as `encode_word` stores them; INIT and reset write it. -/
def Obligations.InitialValuesAndTheirBytes : Prop :=
  initialAccumulators = ⟨0x67452301, 0xEFCDAB89, 0x98BADCFE, 0x10325476⟩
    ∧ encodeWord initialAccumulators.a = #v[0x01, 0x23, 0x45, 0x67]
    ∧ encodeWord initialAccumulators.b = #v[0x89, 0xAB, 0xCD, 0xEF]
    ∧ encodeWord initialAccumulators.c = #v[0xFE, 0xDC, 0xBA, 0x98]
    ∧ encodeWord initialAccumulators.d = #v[0x76, 0x54, 0x32, 0x10]
    ∧ (∀ s : State, ∃ t, exec .init s = .next t ∧ t.engine.acc = initialAccumulators)
    ∧ State.reset.engine.acc = initialAccumulators
    ∧ (∀ s : State, ∃ t, s.takeEvent .reset = .next t ∧ t.engine.acc = initialAccumulators)

/-- R31: the state after power-on, after a reset event and after every INIT. -/
def Obligations.StateAfterResetAndInit : Prop :=
  State.reset.engine.HasResetValues
    ∧ (∀ s : State, ∃ t, s.takeEvent .reset = .next t ∧ t.engine.HasResetValues)
    ∧ (∀ s : State, ∃ t, exec .init s = .next t ∧ t.engine.HasResetValues)

/-- R222, R220: a reset between commands, and one that abandons a command, leave exactly the reset state, which is the
state INIT leaves, and give no response. -/
def Obligations.ResetBetweenAndDuringCommands : Prop :=
  ∀ (s : State) (ev : HostEvent), (ev = .reset ∨ ∃ cut, ev = .resetDuring cut) →
    ∃ t, s.takeEvent ev = .next t ∧ t.engine.HasResetValues ∧ t.engine = State.reset.engine
      ∧ t.output = s.output ∧ ∃ u, exec .init s = .next u ∧ u.engine = t.engine

/-- R20: the seven numbered registers and BUF are the whole architectural state. The register numbers are the spec's
own labels for the model. -/
def Obligations.NumberedRegistersAndBufAreTheState : Prop :=
  ∀ e e' : DigestState, (∀ r, e.stateReg r = e'.stateReg r) → e.buf = e'.buf → e = e'

/-- R24, which the spec marks as its own inference ("[derived: from rule R23 ...]", 90_conflicts.md C1): fill is
`LEN[8:3]`, 0 to 63, and space is 1 to 64. -/
def Obligations.FillAndSpace : Prop :=
  ∀ len : BitVec 64,
    fill len = (len.extractLsb' 3 6).toNat ∧ fill len = len.toNat / 8 % 64 ∧ fill len ≤ 63 ∧ space len = 64 - fill len
      ∧ 1 ≤ space len ∧ space len ≤ 64

/-- R141: the counter advance, on the whole of LEN and on its two halves; the carry out of LEN_HI is lost. -/
def Obligations.LengthCounterOnHalves : Prop :=
  (∀ (e : DigestState) (m : List Byte),
      (absorb e m).len = e.len + BitVec.ofNat 64 (8 * m.length) ∧ (absorb e m).len = advanceLen e.len m.length)
    ∧ (∀ (len : BitVec 64) (n : Nat),
        let sum : BitVec 33 := (lenLo len).setWidth 33 + BitVec.ofNat 33 (8 * n % 2 ^ 32)
        lenLo (advanceLen len n) = sum.extractLsb' 0 32
          ∧ lenHi (advanceLen len n)
              = lenHi len + (sum.extractLsb' 32 1).setWidth 32 + BitVec.ofNat 32 (n >>> 29))
    ∧ (∀ n : Nat, n ≤ 2 ^ 24 - 1 → n >>> 29 = 0)

/-! ### Absorb -/

/-- R142: an Absorb of less than space bytes only buffers. -/
def Obligations.AbsorbOnlyBuffers : Prop :=
  ∀ (e : DigestState) (m : List Byte), m.length < space e.len →
    (absorb e m).buf.toList
        = e.buf.toList.take (fill e.len) ++ m ++ e.buf.toList.drop (fill e.len + m.length)
      ∧ absorbedBlocks e m = [] ∧ (absorb e m).acc = e.acc ∧ (absorb e m).phase = e.phase
      ∧ fill (absorb e m).len = fill e.len + m.length ∧ fill (absorb e m).len ≤ 63

/-- R143 to R145: an Absorb of at least space bytes completes the pending block, takes every further complete block
straight from the input, and keeps the remainder at the head of BUF. -/
def Obligations.AbsorbCompletesBlocks : Prop :=
  ∀ (e : DigestState) (m : List Byte), space e.len ≤ m.length →
    ∃ (completed : Block) (direct : List Block) (p : Nat),
      completed.toList = e.buf.toList.take (fill e.len) ++ m.take (space e.len)
        ∧ p = space e.len + 64 * direct.length ∧ p ≤ m.length ∧ m.length - p < 64
        ∧ (∀ (k : Nat) (h : k < direct.length), direct[k].toList = (m.drop (space e.len + 64 * k)).take 64)
        ∧ (absorb e m).acc = direct.foldl compressBlock (compressBlock e.acc completed)
        ∧ (absorb e m).buf.toList = m.drop p ++ completed.toList.drop (m.length - p)
        ∧ fill (absorb e m).len = m.length - p ∧ (absorb e m).phase = e.phase

/-- R149, which the spec marks as its own inference ("[derived: from rules R140 to R145]"): how often one Absorb calls
Compress, and the fill it leaves. -/
def Obligations.AbsorbTransformCount : Prop :=
  ∀ (e : DigestState) (m : List Byte),
    (absorbedBlocks e m).length = (fill e.len + m.length) / 64
      ∧ (absorb e m).acc = (absorbedBlocks e m).foldl compressBlock e.acc
      ∧ fill (absorb e m).len = (fill e.len + m.length) % 64

/-- R158's reason (R158 is marked "[derived: from rules R140 to R145 and 10_state.md rule R27]"): "Absorb's effect on
(A, B, C, D, LEN, BUF[0..fill)) depends only on the concatenation of what it has absorbed". -/
def Obligations.AbsorbOfPieces : Prop :=
  ∀ (e : DigestState) (x y : List Byte), (absorb (absorb e x) y).SameButStale (absorb e (x ++ y))

/-- R25, marked "[derived: from 42_engine.md rules R142 and R143]": stale bytes are read by no command: two states
that differ only in them answer alike, and differ only in them afterwards. -/
def Obligations.StaleBytesAreNeverRead : Prop :=
  ∀ (i : Instr) (s s' t : State), s.engine.SameButStale s'.engine → s.output = s'.output → exec i s = .next t →
    ∃ t', exec i s' = .next t' ∧ t'.output = t.output ∧ t.engine.SameButStale t'.engine

/-! ### Engine commands -/

/-- R146: INIT completes in every state: every item of R20 is written, and one OK response is given. -/
def Obligations.InitStartsAfresh : Prop :=
  ∀ s : State,
    exec .init s = .next
      { s with
        engine := ⟨⟨0x67452301, 0xEFCDAB89, 0x98BADCFE, 0x10325476⟩, 0, Vector.replicate 64 0x00, 0⟩
        output := s.output ++ [⟨.ok, [], []⟩] }

/-- R147: UPDATE with N ≥ 1 completes in CREATED and UPDATING: it absorbs its payload, PHASE becomes UPDATING, and
nothing else of the machine changes but one OK response. The second clause is the model's choice (log entry 11): a
term whose payload is not N bytes, which the decoder never yields, answers BAD_OPERAND as R202 has it for a
transaction. -/
def Obligations.UpdateAbsorbsItsPayload : Prop :=
  ∀ (n : BitVec 24) (pb : List Byte) (s : State),
    (pb.length = n.toNat → n ≠ 0 → s.Live →
        exec (.update n pb) s = .next
          { s with
            engine := { absorb s.engine pb with phase := phaseUpdating }
            output := s.output ++ [⟨.ok, [], []⟩] })
      ∧ (pb.length ≠ n.toNat →
          exec (.update n pb) s = .next { s with output := s.output ++ [⟨.badOperand, [], []⟩] })

/-- R148: UPDATE with N = 0 writes no state at all: OK in CREATED and UPDATING, MISUSE in FINALIZED. -/
def Obligations.EmptyUpdateWritesNothing : Prop :=
  ∀ s : State,
    (s.Live → exec (.update 0 []) s = .next { s with output := s.output ++ [⟨.ok, [], []⟩] })
      ∧ (s.engine.phase = phaseFinalized →
          exec (.update 0 []) s = .next { s with output := s.output ++ [⟨.misuse, [], []⟩] })

/-- R151 to R153, R150: FINALIZE completes in CREATED and UPDATING. It takes L from LEN before the padding, absorbs
`0x80` and zeros up to fill 56, then the 8 bytes of L, low byte first. -/
def Obligations.FinalizePadsAndAppendsLength : Prop :=
  ∀ s : State, s.Live →
    let e := s.engine
    let padlen := if fill e.len < 56 then 56 - fill e.len else 120 - fill e.len
    let pad : List Byte := 0x80 :: List.replicate (padlen - 1) 0x00
    let lengthBytes : List Byte := (List.range 8).map fun k => e.len.extractLsb' (8 * k) 8
    let padded := absorb e pad
    let final := absorb padded lengthBytes
    lengthBytes = (encodeWord (e.len.extractLsb' 0 32)).toList ++ (encodeWord (e.len.extractLsb' 32 32)).toList
      ∧ 1 ≤ padlen ∧ padlen ≤ 64 ∧ (fill e.len + padlen) % 64 = 56
      ∧ padded.len = e.len + BitVec.ofNat 64 (8 * padlen) ∧ fill padded.len = 56
      ∧ (absorbedBlocks e pad).length = (if fill e.len < 56 then 0 else 1)
      ∧ (absorbedBlocks padded lengthBytes).length = 1 ∧ fill final.len = 0
      ∧ ∃ digest, exec .finalize s = .next
          { s with
            engine := { final with phase := phaseFinalized }
            output := s.output ++ [⟨.ok, [], digest⟩] }

/-- R154: the digest is the 16 bytes of A, B, C and D as FINALIZE leaves them, each little-endian. -/
def Obligations.DigestIsTheAccumulators : Prop :=
  ∀ s t : State, s.Live → exec .finalize s = .next t →
    ∃ digest : List Byte, t.output = s.output ++ [⟨.ok, [], digest⟩] ∧ digest.length = 16
      ∧ digest = (List.range 4).map (fun k => t.engine.acc.a.extractLsb' (8 * k) 8)
          ++ (List.range 4).map (fun k => t.engine.acc.b.extractLsb' (8 * k) 8)
          ++ (List.range 4).map (fun k => t.engine.acc.c.extractLsb' (8 * k) 8)
          ++ (List.range 4).map (fun k => t.engine.acc.d.extractLsb' (8 * k) 8)
      ∧ t.engine.acc = (padAndLength s.engine).acc

/-- R32, marked "[derived: from 42_engine.md rules R150 to R155]": LEN, fill, BUF and PHASE after a successful
FINALIZE. -/
def Obligations.StateAfterFinalize : Prop :=
  ∀ s t : State, s.Live → exec .finalize s = .next t →
    t.engine.phase = phaseFinalized ∧ fill t.engine.len = 0
      ∧ t.engine.len = s.engine.len + BitVec.ofNat 64 (8 * (padLen (fill s.engine.len) + 8))
      ∧ t.engine.buf = (padAndLength s.engine).buf

/-- R32 (an inference of the spec): "No later command reads LEN or BUF before INIT or reset rewrites them": two
spent states that differ in LEN and BUF answer every command alike. -/
def Obligations.SpentLenAndBufAreNeverRead : Prop :=
  ∀ (i : Instr) (s s' t : State), s.engine.phase = phaseFinalized → s'.engine.phase = phaseFinalized →
    s.engine.acc = s'.engine.acc → s.output = s'.output → exec i s = .next t →
    ∃ t', exec i s' = .next t' ∧ t'.output = t.output ∧ t'.engine.acc = t.engine.acc ∧ t'.engine.phase = t.engine.phase

/-- R156, marked "[derived: from rules R149, R151, R152 and R153]": FINALIZE calls Compress once if fill < 56 and
twice if not, the padding 0 or 1 times and the length once; the accumulators are the fold over exactly these
blocks; the padded message has whole blocks. -/
def Obligations.FinalizeTransformCount : Prop :=
  (∀ s : State, s.Live →
      let pad := padding (fill s.engine.len)
      (transformBlocks .finalize s).length = (if fill s.engine.len < 56 then 1 else 2)
        ∧ (absorbedBlocks s.engine pad).length = (if fill s.engine.len < 56 then 0 else 1)
        ∧ (absorbedBlocks (absorb s.engine pad) (lengthField s.engine.len)).length = 1
        ∧ ∃ t, exec .finalize s = .next t
            ∧ t.engine.acc = (transformBlocks .finalize s).foldl compressBlock s.engine.acc)
    ∧ ∀ m : List Byte,
        (paddedMessage m).length = 64 * (m.length / 64 + if m.length % 64 < 56 then 1 else 2)

/-- R157: how the engine commands move PHASE and what they answer; a refused transaction and a stateless command leave
PHASE alone, and a reset acts like INIT. -/
def Obligations.PhaseMoves : Prop :=
  (∀ (i : Instr) (s : State), i.wellFormed = true → s.Safe →
      ∃ (t : State) (r : Response), exec i s = .next t ∧ t.output = s.output ++ [r] ∧
        match i with
        | .init => t.engine.phase = phaseCreated ∧ r = ⟨.ok, [], []⟩
        | .update n _ =>
          (s.engine.phase = phaseFinalized → t.engine.phase = phaseFinalized ∧ r = ⟨.misuse, [], []⟩)
            ∧ (s.engine.phase ≠ phaseFinalized → n = 0 → t.engine.phase = s.engine.phase ∧ r = ⟨.ok, [], []⟩)
            ∧ (s.engine.phase ≠ phaseFinalized → n ≠ 0 → t.engine.phase = phaseUpdating ∧ r = ⟨.ok, [], []⟩)
        | .finalize =>
          t.engine.phase = phaseFinalized
            ∧ (s.engine.phase = phaseFinalized → r = ⟨.misuse, [], []⟩)
            ∧ (s.engine.phase ≠ phaseFinalized → r.sts = .ok ∧ r.rb.length = 16)
        | .decw _ => t.engine.phase = s.engine.phase ∧ r.sts = .ok
        | .encw _ => t.engine.phase = s.engine.phase ∧ r.sts = .ok
        | .compress _ _ => t.engine.phase = s.engine.phase ∧ r.sts = .ok)
    ∧ (∀ (s t : State) (tx : Transaction) (rej : DecodeReject), decode tx = .error rej → s.runTransaction tx = .next t →
        t.engine.phase = s.engine.phase)
    ∧ (∀ s : State, ∃ t, s.takeEvent .reset = .next t ∧ t.engine.phase = phaseCreated)

/-- R155: FINALIZE ends in FINALIZED with its OK response; "No transition leaves Finalized" but INIT and reset; UPDATE
and FINALIZE answer MISUSE there. -/
def Obligations.FinalizedLastsUntilInitOrReset : Prop :=
  (∀ s t : State, s.Live → exec .finalize s = .next t →
      t.engine.phase = phaseFinalized ∧ ∃ digest, t.output = s.output ++ [⟨.ok, [], digest⟩])
    ∧ ∀ (s : State) (ev : HostEvent), s.engine.phase = phaseFinalized →
        ∃ t, s.takeEvent ev = .next t
          ∧ (t.engine = s.engine ∨ ev = .command (encode .init) ∨ ev = .reset ∨ ∃ cut, ev = .resetDuring cut)
          ∧ ∀ tx i, ev = .command tx → decode tx = .ok i → (i.opcode = .update ∨ i.opcode = .finalize) →
              t.output = s.output ++ [⟨.misuse, [], []⟩]

/-- R21: only INIT, UPDATE and FINALIZE write A to D, and UPDATE only when a block completes. -/
def Obligations.WhoWritesTheAccumulators : Prop :=
  ∀ (i : Instr) (s t : State), exec i s = .next t → t.engine.acc ≠ s.engine.acc →
    i = .init ∨ i = .finalize ∨ ∃ n pb, i = .update n pb ∧ 64 ≤ fill s.engine.len + pb.length

/-- The model's choice for PHASE = 3 (log entry 2; spec/93_implementation_defined.md U8 says "stuck"): the two
commands that read PHASE stop, and INIT still starts afresh. -/
def Obligations.UndefinedPhaseIsStuck : Prop :=
  ∀ (s : State) (n : BitVec 24) (pb : List Byte), s.engine.phase = phaseUndefined →
    exec .finalize s = .fault .phaseUndefined
      ∧ (pb.length = n.toNat → exec (.update n pb) s = .fault .phaseUndefined)
      ∧ ∃ t, exec .init s = .next t ∧ t.engine = DigestState.initial

/-! ### Errors -/

/-- R201, R66: an illegal OPC is refused in every PHASE whatever else the transaction holds; there are 250 such
values. -/
def Obligations.IllegalOpcodeIsRefused : Prop :=
  (∀ (s : State) (tx : Transaction), ¬ LegalOpc (opcField tx.cmd) →
      s.runTransaction tx = .next { s with output := s.output ++ [⟨.illegalOpcode, [], []⟩] })
    ∧ ((List.range 256).filter fun n => (Opcode.ofByte (BitVec.ofNat 8 n)).isNone)
        = 0x00 :: (List.range 12).map (· + 0x04) ++ (List.range 237).map (· + 0x13)
    ∧ ((List.range 256).filter fun n => (Opcode.ofByte (BitVec.ofNat 8 n)).isNone).length = 250

/-- R202: a legal OPC with a wrong ARG, |PW| or |PB| is BAD_OPERAND, in every PHASE. -/
def Obligations.BadOperandIsRefused : Prop :=
  ∀ (s : State) (tx : Transaction), LegalOpc (opcField tx.cmd) → ¬ WellShaped tx →
    s.runTransaction tx = .next { s with output := s.output ++ [⟨.badOperand, [], []⟩] }

/-- R205, R203, R68: the status of every transaction, by number: illegal opcode before bad operand before misuse. -/
def Obligations.StatusOfEveryTransaction : Prop :=
  ∀ (s : State) (tx : Transaction), s.Safe →
    ∃ (t : State) (r : Response), s.runTransaction tx = .next t ∧ t.output = s.output ++ [r]
      ∧ (¬ LegalOpc (opcField tx.cmd) → r.sts.code = 0x01)
      ∧ (LegalOpc (opcField tx.cmd) → ¬ WellShaped tx → r.sts.code = 0x02)
      ∧ (LegalOpc (opcField tx.cmd) → WellShaped tx →
          ((opcField tx.cmd = 0x02 ∨ opcField tx.cmd = 0x03) ∧ s.engine.phase = phaseFinalized → r.sts.code = 0x03)
            ∧ (¬ ((opcField tx.cmd = 0x02 ∨ opcField tx.cmd = 0x03) ∧ s.engine.phase = phaseFinalized) →
                r.sts.code = 0x00))

/-- R204: a command that raises an error writes no state, answers no result, and records nothing else. -/
def Obligations.ErrorsWriteNoState : Prop :=
  ∀ (s t : State) (tx : Transaction) (r : Response), s.runTransaction tx = .next t → t.output = s.output ++ [r] →
    r.sts ≠ .ok → t = { s with output := s.output ++ [⟨r.sts, [], []⟩] } ∧ r.rw = [] ∧ r.rb = []

/-- R216: DECW, ENCW and COMPRESS answer the same in every state, change no architectural state, and never raise
MISUSE; their one error is BAD_OPERAND. -/
def Obligations.StatelessCommandsIgnoreTheState : Prop :=
  ∀ tx : Transaction, (opcField tx.cmd = 0x10 ∨ opcField tx.cmd = 0x11 ∨ opcField tx.cmd = 0x12) →
    ∃ r : Response, (r.sts = .ok ∨ r.sts = .badOperand)
      ∧ ∀ s : State, s.runTransaction tx = .next { s with output := s.output ++ [r] }

/-! ### The step and the command stream -/

/-- R44, R48, R67: when the host's next event is a transaction that decodes to `i`, the step is `exec i` with that
event taken off the stream; a transaction that does not decode is answered with its error. -/
def Obligations.StepRunsTheDecodedCommand : Prop :=
  ∀ (s : State) (tx : Transaction) (rest : List HostEvent), s.input = .command tx :: rest →
    (∀ i, decode tx = .ok i → step s = exec i { s with input := rest })
      ∧ (decode tx = .error .illegalOpcode →
          step s = .next { s with input := rest, output := s.output ++ [⟨.illegalOpcode, [], []⟩] })
      ∧ (decode tx = .error .badOperand →
          step s = .next { s with input := rest, output := s.output ++ [⟨.badOperand, [], []⟩] })

/-- R62, R63: from every safe state every transaction answers a next state; and from every state, where it does, it has
exactly one response, after every earlier one, with as many result words and bytes as its command's row says on OK and
none otherwise, and leaves the rest of the stream alone. -/
def Obligations.OneResponsePerCommand : Prop :=
  (∀ (tx : Transaction) (s : State), s.Safe → ∃ t, s.runTransaction tx = .next t)
    ∧ ∀ (tx : Transaction) (s t : State), s.runTransaction tx = .next t →
        t.input = s.input ∧ ∃ r : Response, t.output = s.output ++ [r]
          ∧ (r.sts ≠ .ok → r.rw = [] ∧ r.rb = [])
          ∧ (r.sts = .ok → ∃ i, decode tx = .ok i ∧ r.rw.length = i.opcode.rwCount ∧ r.rb.length = i.opcode.rbCount)

/-- R48, R62: over any number of steps, events are taken in the host's order, earlier responses stay as they are, and
there is one new response for each command taken. Two clauses are the model's choices: that the later events and the
responses survive a reset (log entry 6), and that steps past the end of the stream change nothing (log entry 1). -/
def Obligations.CommandsCompleteInOrder : Prop :=
  ∀ (k : Nat) (s t : State), core.run k s = .next t →
    t.input = s.input.drop k ∧ ∃ new : List Response, t.output = s.output ++ new
      ∧ new.length = commandCount (s.input.take k)

/-- R45 (an inference of the spec): DECW, ENCW and COMPRESS sent again give the same response; INIT sent again leaves
the same state; a second FINALIZE returns MISUSE and changes nothing; an UPDATE with N ≥ 1 sent again completes too,
advances LEN again, and extends the message by its payload once more. -/
def Obligations.SendingACommandAgain : Prop :=
  (∀ (i : Instr) (s t : State), (i.opcode = .decw ∨ i.opcode = .encw ∨ i.opcode = .compress) → exec i s = .next t →
      t.engine = s.engine ∧ ∃ r, t.output = s.output ++ [r] ∧ exec i t = .next { t with output := t.output ++ [r] })
    ∧ (∀ s t u : State, exec .init s = .next t → exec .init t = .next u → u.engine = t.engine)
    ∧ (∀ s t : State, exec .finalize s = .next t →
        exec .finalize t = .next { t with output := t.output ++ [⟨.misuse, [], []⟩] })
    ∧ (∀ (n : BitVec 24) (pb : List Byte) (s : State), pb.length = n.toNat → n ≠ 0 → s.Live →
        ∃ t u : State, exec (.update n pb) s = .next t ∧ exec (.update n pb) t = .next u
          ∧ u.engine.len = t.engine.len + BitVec.ofNat 64 (8 * n.toNat) ∧ u.engine.len ≠ t.engine.len
          ∧ ∀ m, s.engine.Holds m → t.engine.Holds (m ++ pb) ∧ u.engine.Holds (m ++ pb ++ pb))

/-! ### Invariants -/

/-- The reset state is safe. -/
def Obligations.ResetIsSafe : Prop := State.reset.Safe

/-- R26, R204: from every safe state a step answers a next state, and that state is safe: PHASE never takes the value
no rule writes, and every transaction is answered. -/
def Obligations.SafeStatesStepToSafeStates : Prop :=
  ∀ s : State, s.Safe → ∃ t, step s = .next t ∧ t.Safe

/-- R27 (an inference of the spec) at reset: the state stands for the empty message. -/
def Obligations.ResetHoldsTheEmptyMessage : Prop := State.reset.engine.Holds []

/-- R27 (an inference of the spec): every event of the host keeps the invariant of the digest engine. Where the state
stands for a message (LEN its bit length, `BUF[0..fill)` its last bytes, A to D the fold of Compress over its complete
blocks), it stands for the message after the event; where it is spent, it stays so until INIT or reset. The step takes
that one event and leaves the later ones; that they survive a reset is the model's choice (log entry 6). -/
def Obligations.EventsKeepTheMessageInvariant : Prop :=
  ∀ (s : State) (msg : Option (List Byte)) (ev : HostEvent) (rest : List HostEvent),
    s.engine.Tracks msg → s.input = ev :: rest →
      ∃ t, step s = .next t ∧ t.input = rest ∧ t.engine.Tracks (messageAfter msg ev)

/-- R27.1 and R25 (inferences of the spec): what the invariant says of the buffer: it holds the bytes after the last
complete block. -/
def Obligations.BufferHoldsTheTailOfTheMessage : Prop :=
  ∀ (e : DigestState) (m : List Byte), e.Holds m →
    fill e.len = m.length % 64 ∧ fill e.len ≤ 63
      ∧ m = ((blocksOf m).map Vector.toList).flatten ++ e.buf.toList.take (fill e.len)

/-! ### The whole digest -/

/-- R2 and R154, with the spec's inferences R158 and R159: from any state, INIT, then any UPDATEs, then FINALIZE answer
OK throughout, and the digest is the MD5 of the concatenated chunks, however they are cut. `md5` folds Compress over
the blocks of the whole padded message; CompressIsItsPseudocode holds that Compress to R116's words and R120 to R123. -/
def Obligations.HashIsMd5OfTheChunks : Prop :=
  ∀ (s : State) (chunks : List (List Byte)) (rest : List HostEvent), (∀ c ∈ chunks, c.length ≤ Config.maxChunk) →
    s.input = commandEvents (.init :: chunks.map updateOf ++ [.finalize]) ++ rest →
    ∃ t, core.run (chunks.length + 2) s = .next t ∧ t.input = rest
      ∧ t.output = s.output ++ List.replicate (chunks.length + 1) okResponse ++ [⟨.ok, [], md5 chunks.flatten⟩]

/-- R71: the chunks of UPDATE_LONG put together are its bytes, each carries 1 to MAX_CHUNK bytes, and running them has
the effect of one Absorb of all the bytes, up to stale bytes. -/
def Obligations.UpdateLongActsAsOneAbsorb : Prop :=
  ∀ m : List Byte,
    (longChunks m).flatten = m ∧ (∀ c ∈ longChunks m, 1 ≤ c.length ∧ c.length ≤ Config.maxChunk)
      ∧ ∀ (s : State) (rest : List HostEvent), s.Live →
          s.input = commandEvents ((longChunks m).map updateOf) ++ rest →
          ∃ t, core.run (longChunks m).length s = .next t ∧ t.input = rest
            ∧ t.engine.SameButStale
                { absorb s.engine m with phase := if m = [] then s.engine.phase else phaseUpdating }

/-- R70, R71: what the assembler sends for each command and for HASH (of UPDATE_LONG the statement says only what HASH
holds of it). The clauses for DECW and COMPRESS take every byte expression of 4 and of 64 bytes: the model's choice (log
entry 10), since R70 shows only a bracketed list for DECW and gives `<64 bytes>` no form. -/
def Obligations.AssemblerSendsTheEncodings : Prop :=
  AsmLine.init.assemble = some [encode .init]
    ∧ AsmLine.finalize.assemble = some [encode .finalize]
    ∧ (∀ (x : ByteExpr) (bs : List Byte), x.eval = some bs → bs.length ≤ Config.maxChunk →
        (AsmLine.update x).assemble = some [encode (updateOf bs)])
    ∧ (∀ (x : ByteExpr) (pb : Vector Byte 4), x.eval = some pb.toList →
        (AsmLine.decw x).assemble = some [encode (.decw pb)])
    ∧ (∀ w : Word, (AsmLine.encw w).assemble = some [encode (.encw w)])
    ∧ (∀ (a b c d : Word) (x : ByteExpr) (blk : Block), x.eval = some blk.toList →
        (AsmLine.compress a b c d x).assemble = some [encode (.compress ⟨a, b, c, d⟩ blk)])
    ∧ (∀ (x : ByteExpr) (bs : List Byte), x.eval = some bs →
        (AsmLine.hash x).assemble
          = some ((Instr.init :: (longChunks bs).map updateOf ++ [Instr.finalize]).map encode))

/-! ### Timing and instances -/

/-- R226: UPDATE performs `⌊(fill + N) / 64⌋` transforms. That the time a command spends in transforms depends on its
command word, payload length, LEN and PHASE, never on the data, is said of the model's `transformTime`, the count of
transforms times one opaque BLOCK_LATENCY: the model's choice (log entry 8). -/
def Obligations.TransformTimeIgnoresTheData : Prop :=
  (∀ (n : BitVec 24) (pb : List Byte) (s : State), pb.length = n.toNat → s.Live →
      (transformBlocks (.update n pb) s).length = (fill s.engine.len + n.toNat) / 64)
    ∧ ∀ (i j : Instr) (s s' : State), (encode i).cmd = (encode j).cmd → (encode i).pb.length = (encode j).pb.length →
        s.engine.len = s'.engine.len → s.engine.phase = s'.engine.phase → transformTime i s = transformTime j s'

/-- R33: a step of one instance is the step it takes on its own, and no other instance changes. -/
def Obligations.InstancesShareNothing : Prop :=
  ∀ (p q : Platform) (k : Fin Config.numInstances), p.stepAt k = .next q →
    step p.cores[k] = .next q.cores[k] ∧ ∀ j : Fin Config.numInstances, j ≠ k → q.cores[j] = p.cores[j]

/-- R69: "From CMD alone a decoder knows how long the payload must be", so a transport that sends the payload after CMD
(one unit a beat, words before bytes: the model's choice, log entry 9) knows how many beats to take. It takes exactly
the transaction of every well-formed command off the front of any stream; and whatever it takes stood at the front of
the stream and, where its OPC is legal, fails no check of R64 but `arg_ok`. -/
def Obligations.PayloadLengthsFollowFromCmd : Prop :=
  (∀ (i : Instr) (rest : List Beat), i.wellFormed = true →
      takeTransaction (beatsOf (encode i) ++ rest) = some (encode i, rest))
    ∧ ∀ (bs rest : List Beat) (t : Transaction), takeTransaction bs = some (t, rest) →
        bs = beatsOf t ++ rest ∧ (decode t = .error .badOperand → opcField t.cmd ≠ 0x02 ∧ argField t.cmd ≠ 0)
end

