-- ==== Sys2Proof/Laws/Buffer.lean ====
section
/-! SUPPORT. BUF, LEN and the splitting of bytes into blocks. -/

namespace Sys2Proof.Machine

/-! ### LEN (spec/10_state.md R23, R24) -/

/-- R24: fill is the byte count of LEN modulo 64. -/
theorem fill_eq (len : BitVec 64) : fill len = len.toNat / 8 % 64 := by
  simp [fill, BitVec.extractLsb'_toNat, Nat.shiftRight_eq_div_pow]

theorem fill_lt (len : BitVec 64) : fill len < 64 := by
  rw [fill_eq]; omega

theorem space_pos (len : BitVec 64) : 0 < space len := by
  have := fill_lt len
  unfold space; omega

theorem fill_add_space (len : BitVec 64) : fill len + space len = 64 := by
  have := fill_lt len
  unfold space; omega

/-- R149's fill: absorbing n bytes moves fill by n modulo 64. -/
theorem fill_advanceLen (len : BitVec 64) (n : Nat) : fill (advanceLen len n) = (fill len + n) % 64 := by
  simp only [fill_eq, advanceLen, BitVec.toNat_add, BitVec.toNat_ofNat]
  omega

theorem advanceLen_zero (len : BitVec 64) : advanceLen len 0 = len := by
  simp [advanceLen]

theorem advanceLen_advanceLen (len : BitVec 64) (m n : Nat) :
    advanceLen (advanceLen len m) n = advanceLen len (m + n) := by
  apply BitVec.eq_of_toNat_eq
  simp only [advanceLen, BitVec.toNat_add, BitVec.toNat_ofNat]
  omega

/-! ### BUF (spec/10_state.md R25) -/

/-- Bytes written inside the buffer stand where they were written; every other byte is kept. -/
theorem writeBuf_toList (bs : List Byte) : ∀ (buf : Block) (i : Nat), i + bs.length ≤ 64 →
    (writeBuf buf i bs).toList = buf.toList.take i ++ bs ++ buf.toList.drop (i + bs.length) := by
  induction bs with
  | nil => intro buf i _; simp [writeBuf]
  | cons b bs ih =>
    intro buf i h
    simp only [List.length_cons] at h
    rw [writeBuf, ih _ _ (by omega)]
    have hl : buf.toList.length = 64 := by simp
    have hset : (buf.setIfInBounds i b).toList = buf.toList.set i b := by
      simp [Vector.toList_setIfInBounds]
    rw [hset]
    have htake : (buf.toList.set i b).take (i + 1) = buf.toList.take i ++ [b] := by
      rw [List.take_set, List.take_succ_eq_append_getElem (by omega)]
      rw [List.set_append_right _ _ (by simp)]
      simp [Nat.min_eq_left (show i ≤ 64 by omega)]
    have hdrop : (buf.toList.set i b).drop (i + 1 + bs.length) = buf.toList.drop (i + 1 + bs.length) := by
      rw [List.drop_set, if_pos (by omega)]
    rw [htake, hdrop]
    simp [Nat.add_assoc, Nat.add_comm 1]

/-- The first `i + |bs|` bytes after writing `bs` at `i`. -/
theorem writeBuf_take (buf : Block) (i : Nat) (bs : List Byte) (h : i + bs.length ≤ 64) :
    (writeBuf buf i bs).toList.take (i + bs.length) = buf.toList.take i ++ bs := by
  rw [writeBuf_toList _ _ _ h, List.take_left']
  simp; omega

/-- One byte of the buffer after writing `bs` at `i`. -/
theorem writeBuf_getElem (bs : List Byte) : ∀ (buf : Block) (i : Nat), i + bs.length ≤ 64 → ∀ (j : Nat) (hj : j < 64),
    (writeBuf buf i bs)[j] = if h : i ≤ j ∧ j - i < bs.length then bs[j - i]'h.2 else buf[j] := by
  induction bs with
  | nil => intro buf i _ j hj; simp [writeBuf]
  | cons b bs ih =>
    intro buf i h j hj
    simp only [List.length_cons] at h
    rw [writeBuf, ih _ _ (by omega) j hj]
    by_cases h1 : i + 1 ≤ j ∧ j - (i + 1) < bs.length
    · have h2 : i ≤ j ∧ j - i < (b :: bs).length := by simp only [List.length_cons]; omega
      rw [dif_pos h1, dif_pos h2, List.getElem_cons, dif_neg (by omega)]
      congr 1
    · rw [dif_neg h1]
      by_cases h3 : j = i
      · subst h3
        simp
      · rw [dif_neg (by simp only [List.length_cons]; omega)]
        rw [Vector.getElem_setIfInBounds_ne (by omega) (by omega)]

/-! ### Blocks (spec/42_engine.md R144) -/

/-- Everything the loop of R144 leaves: it takes `⌊|m| / 64⌋` blocks off the head of `m`, in order. -/
theorem fullBlocks_spec : ∀ (fuel : Nat) (m : List Byte), m.length ≤ fuel →
    (fullBlocks fuel m).1.length = m.length / 64
      ∧ ((fullBlocks fuel m).1.map Vector.toList).flatten = m.take (64 * (m.length / 64))
      ∧ (fullBlocks fuel m).2 = m.drop (64 * (m.length / 64)) := by
  intro fuel
  induction fuel with
  | zero => intro m h; simp at h; subst h; simp [fullBlocks]
  | succ k ih =>
    intro m h
    by_cases h64 : 64 ≤ m.length
    · obtain ⟨h1, h2, h3⟩ := ih (m.drop 64) (by simp; omega)
      have hdiv : m.length / 64 = (m.drop 64).length / 64 + 1 := by simp; omega
      rw [fullBlocks, dif_pos h64]
      refine ⟨by simp only [List.length_cons, h1]; exact hdiv.symm, ?_, ?_⟩
      · simp only [List.map_cons, List.flatten_cons, h2]
        rw [hdiv, Nat.mul_add, Nat.mul_one, Nat.add_comm _ 64, List.take_add]
        rfl
      · simp only [h3]
        rw [hdiv, List.drop_drop]
        congr 1; omega
    · have : m.length / 64 = 0 := by omega
      rw [fullBlocks, dif_neg h64]
      simp [this]

/-- Any fuel that is enough gives the same blocks. -/
theorem fullBlocks_fuel : ∀ (fuel fuel' : Nat) (m : List Byte), m.length ≤ fuel → m.length ≤ fuel' →
    fullBlocks fuel m = fullBlocks fuel' m := by
  intro fuel
  induction fuel with
  | zero =>
    intro fuel' m h _
    simp at h; subst h
    cases fuel' <;> simp [fullBlocks]
  | succ k ih =>
    intro fuel' m h h'
    cases fuel' with
    | zero => simp at h'; subst h'; simp [fullBlocks]
    | succ k' =>
      rw [fullBlocks, fullBlocks]
      by_cases h64 : 64 ≤ m.length
      · rw [dif_pos h64, dif_pos h64, ih k' (m.drop 64) (by simp; omega) (by simp; omega)]
      · rw [dif_neg h64, dif_neg h64]

/-- A block at the head comes off first. -/
theorem fullBlocks_block_append (b : Block) (m : List Byte) (fuel fuel' : Nat) (h : (b.toList ++ m).length ≤ fuel)
    (h' : m.length ≤ fuel') :
    fullBlocks fuel (b.toList ++ m) = (b :: (fullBlocks fuel' m).1, (fullBlocks fuel' m).2) := by
  have hlen : (b.toList ++ m).length = 64 + m.length := by simp
  obtain ⟨k, rfl⟩ : ∃ k, fuel = k + 1 := ⟨fuel - 1, by omega⟩
  have hb : b.toList.length = 64 := by simp
  have htake : (b.toList ++ m).take 64 = b.toList := List.take_left' hb
  have hdrop : (b.toList ++ m).drop 64 = m := List.drop_left' hb
  rw [fullBlocks, dif_pos (by omega)]
  simp only [htake, hdrop]
  rw [fullBlocks_fuel k fuel' m (by omega) h']
  rfl

/-- Nothing comes off what is shorter than a block. -/
theorem fullBlocks_short (m : List Byte) (fuel : Nat) (h : m.length < 64) : fullBlocks fuel m = ([], m) := by
  cases fuel with
  | zero => rfl
  | succ k => rw [fullBlocks, dif_neg (by omega)]

end Sys2Proof.Machine
end

