-- ==== Sys2Proof/Laws/Absorb.lean ====
section
/-! SUPPORT. Everything Absorb can do (spec/42_engine.md R140 to R145), said once in terms of the pending bytes: it takes
the complete blocks off the pending bytes followed by the input, and the rest becomes the pending bytes. -/

namespace Sys2Proof.Machine

/-- R25: `BUF[0..fill)`, the bytes "after the last complete 64-byte block". -/
def DigestState.pending (e : DigestState) : List Byte := e.buf.toList.take (fill e.len)

theorem pending_length (e : DigestState) : e.pending.length = fill e.len := by
  have := fill_lt e.len
  simp [DigestState.pending]; omega

/-- The block that R143 completes: the pending bytes and the head of the input. -/
theorem completed_toList (e : DigestState) (m : List Byte) (h : space e.len ≤ m.length) :
    (writeBuf e.buf (fill e.len) (m.take (space e.len))).toList = e.pending ++ m.take (space e.len) := by
  have hs := fill_add_space e.len
  have hl : (m.take (space e.len)).length = space e.len := by simp; omega
  rw [writeBuf_toList _ _ _ (by omega), hl, hs]
  simp [DigestState.pending]

@[simp] theorem absorb_nil (e : DigestState) : absorb e [] = e := by simp [absorb]

@[simp] theorem absorb_phase (e : DigestState) (m : List Byte) : (absorb e m).phase = e.phase := by
  unfold absorb; split <;> [rfl; split <;> rfl]

@[simp] theorem absorb_len (e : DigestState) (m : List Byte) : (absorb e m).len = advanceLen e.len m.length := by
  unfold absorb
  split
  · rename_i h
    rw [List.isEmpty_iff] at h
    simp [h, advanceLen_zero]
  · split <;> rfl

/-- R140: "Absorb does not read or write PHASE." -/
theorem absorb_withPhase (e : DigestState) (p : PhaseReg) (m : List Byte) :
    absorb { e with phase := p } m = { absorb e m with phase := p } := by
  simp only [absorb]
  split <;> [rfl; split <;> rfl]

theorem absorb_acc (e : DigestState) (m : List Byte) :
    (absorb e m).acc = (absorbedBlocks e m).foldl compressBlock e.acc := by
  unfold absorb absorbedBlocks
  split <;> [rfl; split <;> rfl]

/-- The blocks and the remainder of the bytes an Absorb has before it. -/
theorem absorb_blocks (e : DigestState) (m : List Byte) (fuel : Nat) (h : (e.pending ++ m).length ≤ fuel) :
    fullBlocks fuel (e.pending ++ m) = (absorbedBlocks e m, (absorb e m).pending) := by
  have hp := pending_length e
  have hs := fill_add_space e.len
  have hsp := space_pos e.len
  by_cases hm : m = []
  · subst hm
    have : absorbedBlocks e [] = [] := by simp [absorbedBlocks]
    rw [this, absorb_nil, List.append_nil, fullBlocks_short _ _ (by have := fill_lt e.len; omega)]
  · have hne : m.isEmpty = false := by simpa using hm
    by_cases hn : space e.len ≤ m.length
    · have hc := completed_toList e m hn
      have hsplit : e.pending ++ m
          = (writeBuf e.buf (fill e.len) (m.take (space e.len))).toList ++ m.drop (space e.len) := by
        rw [hc, List.append_assoc, List.take_append_drop]
      have hblk := fullBlocks_block_append (writeBuf e.buf (fill e.len) (m.take (space e.len)))
        (m.drop (space e.len)) fuel m.length (by rw [← hsplit]; exact h) (by simp)
      obtain ⟨-, -, hrest⟩ := fullBlocks_spec m.length (m.drop (space e.len)) (by simp)
      have hrl : (fullBlocks m.length (m.drop (space e.len))).2.length = fill (advanceLen e.len m.length) := by
        rw [hrest, fill_advanceLen]; simp; omega
      rw [hsplit, hblk]
      refine Prod.ext ?_ ?_
      · simp [absorbedBlocks, hm, hn]
      · have hpend : (absorb e m).pending
            = (writeBuf (writeBuf e.buf (fill e.len) (m.take (space e.len))) 0
                (fullBlocks m.length (m.drop (space e.len))).2).toList.take (fill (advanceLen e.len m.length)) := by
          simp [DigestState.pending, absorb, hm, hn]
        have hfl := fill_lt (advanceLen e.len m.length)
        have := writeBuf_take (writeBuf e.buf (fill e.len) (m.take (space e.len))) 0
          (fullBlocks m.length (m.drop (space e.len))).2 (by omega)
        rw [hpend, ← hrl]
        simpa using this.symm
    · have hshort : (e.pending ++ m).length < 64 := by simp; omega
      rw [fullBlocks_short _ _ hshort]
      refine Prod.ext ?_ ?_
      · simp [absorbedBlocks, hm, hn]
      · have hpend : (absorb e m).pending
            = (writeBuf e.buf (fill e.len) m).toList.take (fill (advanceLen e.len m.length)) := by
          simp [DigestState.pending, absorb, hm, hn]
        have hf : fill (advanceLen e.len m.length) = fill e.len + m.length := by
          rw [fill_advanceLen]; exact Nat.mod_eq_of_lt (by omega)
        rw [hpend, hf, writeBuf_take _ _ _ (by omega)]
        rfl

/-- What Absorb compresses, as blocks of bytes. -/
theorem absorbedBlocks_eq (e : DigestState) (m : List Byte) : absorbedBlocks e m = blocksOf (e.pending ++ m) := by
  have := absorb_blocks e m (e.pending ++ m).length (Nat.le_refl _)
  rw [blocksOf, this]

/-- What Absorb leaves pending, as bytes. -/
theorem absorb_pending (e : DigestState) (m : List Byte) :
    (absorb e m).pending = (e.pending ++ m).drop (64 * ((e.pending ++ m).length / 64)) := by
  have h := absorb_blocks e m (e.pending ++ m).length (Nat.le_refl _)
  have hr := (fullBlocks_spec (e.pending ++ m).length (e.pending ++ m) (Nat.le_refl _)).2.2
  rw [h] at hr
  exact hr

/-- Blocks come off a message from the front: those of its head, then those of the head's remainder with the tail. -/
theorem blocksOf_append (x y : List Byte) :
    blocksOf (x ++ y) = blocksOf x ++ blocksOf (x.drop (64 * (x.length / 64)) ++ y) := by
  unfold blocksOf
  generalize hk : x.length = k
  induction k using Nat.strongRecOn generalizing x with
  | ind k ih =>
    by_cases h64 : 64 ≤ x.length
    · have hb : (x.take 64).length = 64 := by simp; omega
      let b : Block := ⟨⟨x.take 64⟩, hb⟩
      have hx : x = b.toList ++ x.drop 64 := (List.take_append_drop 64 x).symm
      have hdl : (x.drop 64).length = k - 64 := by simp; omega
      have h1 : fullBlocks (x ++ y).length (x ++ y) = (b :: (fullBlocks (x.drop 64 ++ y).length (x.drop 64 ++ y)).1,
          (fullBlocks (x.drop 64 ++ y).length (x.drop 64 ++ y)).2) := by
        have := fullBlocks_block_append b (x.drop 64 ++ y) (x ++ y).length (x.drop 64 ++ y).length
          (by rw [← List.append_assoc, ← hx]) (Nat.le_refl _)
        rwa [← List.append_assoc, ← hx] at this
      have h2 : fullBlocks k x = (b :: (fullBlocks (k - 64) (x.drop 64)).1, (fullBlocks (k - 64) (x.drop 64)).2) := by
        have := fullBlocks_block_append b (x.drop 64) k (k - 64) (by rw [← hx]; omega) (by omega)
        rwa [← hx] at this
      have hdrop : x.drop (64 * (k / 64)) = (x.drop 64).drop (64 * ((k - 64) / 64)) := by
        rw [List.drop_drop]; congr 1; omega
      rw [h1, h2, hdrop, ih (k - 64) (by omega) (x.drop 64) hdl]
      rfl
    · have h0 : k / 64 = 0 := by omega
      rw [h0]
      simp [fullBlocks_short x k (by omega)]

/-- R158's reason, for the blocks: absorbing two pieces compresses what absorbing them together compresses. -/
theorem absorbedBlocks_append (e : DigestState) (x y : List Byte) :
    absorbedBlocks e (x ++ y) = absorbedBlocks e x ++ absorbedBlocks (absorb e x) y := by
  rw [absorbedBlocks_eq, absorbedBlocks_eq, absorbedBlocks_eq, absorb_pending, ← List.append_assoc, blocksOf_append]

end Sys2Proof.Machine
end

