-- ==== Sys2Proof/Laws/Decode.lean ====
section
/-! SUPPORT. The command word and the opcode map (spec/30_encoding.md R61, R63). -/

namespace Sys2Proof

@[simp] theorem opcField_cmdWord (arg : BitVec 24) (opc : Byte) : opcField (cmdWord arg opc) = opc := by
  apply BitVec.eq_of_getLsbD_eq
  intro i hi
  have : i < 32 := by omega
  simp [opcField, cmdWord, hi, this]

@[simp] theorem argField_cmdWord (arg : BitVec 24) (opc : Byte) : argField (cmdWord arg opc) = arg := by
  apply BitVec.eq_of_getLsbD_eq
  intro i hi
  have h : 8 + i < 32 := by omega
  simp [argField, cmdWord, hi, h]

/-- A command word is its two fields. -/
theorem cmdWord_fields (cmd : Word) : cmdWord (argField cmd) (opcField cmd) = cmd := by
  apply BitVec.eq_of_getLsbD_eq
  intro i hi
  by_cases h : i < 8
  · simp [cmdWord, argField, opcField, hi, h]
  · have h8 : 8 + (i - 8) = i := by omega
    have h24 : i - 8 < 24 := by omega
    simp [cmdWord, argField, opcField, hi, h, h8, h24]

@[simp] theorem Opcode.ofByte_toByte (op : Opcode) : Opcode.ofByte op.toByte = some op := by
  cases op <;> rfl

/-- No two rows of R63 share an OPC, and `ofByte` finds the one there is. -/
theorem Opcode.ofByte_eq_some {b : Byte} {op : Opcode} : Opcode.ofByte b = some op ↔ op.toByte = b := by
  constructor
  · intro h
    simpa using List.find?_some h
  · rintro rfl
    exact Opcode.ofByte_toByte op

/-- R66: an OPC is illegal exactly when no row of R63 has it. -/
theorem Opcode.ofByte_eq_none {b : Byte} : Opcode.ofByte b = none ↔ ∀ op : Opcode, op.toByte ≠ b := by
  constructor
  · intro h op hop
    rw [← hop, Opcode.ofByte_toByte] at h
    cases h
  · intro h
    cases hb : Opcode.ofByte b with
    | none => rfl
    | some op => exact absurd (Opcode.ofByte_eq_some.mp hb) (h op)

/-- The command a well-formed transaction decodes to belongs to its opcode's row. -/
@[simp] theorem operands_opcode (op : Opcode) (t : Transaction) (h : ShapeOk op t) :
    (operands op t h).opcode = op := by
  cases op <;> rfl

/-- Everything the decoder can answer, by the checks it makes. -/
theorem decode_cases (t : Transaction) :
    (Opcode.ofByte (opcField t.cmd) = none ∧ decode t = .error .illegalOpcode)
      ∨ (∃ op, Opcode.ofByte (opcField t.cmd) = some op ∧ ¬ ShapeOk op t ∧ decode t = .error .badOperand)
      ∨ (∃ op, ∃ h : ShapeOk op t, Opcode.ofByte (opcField t.cmd) = some op ∧ decode t = .ok (operands op t h)) := by
  unfold decode
  cases hop : Opcode.ofByte (opcField t.cmd) with
  | none => exact .inl ⟨rfl, rfl⟩
  | some op =>
    by_cases h : ShapeOk op t
    · exact .inr (.inr ⟨op, h, rfl, dif_pos h⟩)
    · exact .inr (.inl ⟨op, rfl, h, dif_neg h⟩)

/-- A well-formed transaction of a known opcode decodes to its operands. -/
theorem decode_of_shapeOk {t : Transaction} {op : Opcode} (hop : op.toByte = opcField t.cmd) (h : ShapeOk op t) :
    decode t = .ok (operands op t h) := by
  unfold decode
  rw [← hop, Opcode.ofByte_toByte]
  exact dif_pos h

end Sys2Proof
end

