-- ==== Sys2Proof/Laws/State.lean ====
section
/-! SUPPORT. One lemma per field for each update of the state: responding, raising an error, resetting, and writing the
engine's registers. -/

namespace Sys2Proof.Machine

@[simp] theorem State.respond_engine (s : State) (e : Status) (rw : List Word) (rb : List Byte) :
    (s.respond e rw rb).engine = s.engine := rfl

@[simp] theorem State.respond_input (s : State) (e : Status) (rw : List Word) (rb : List Byte) :
    (s.respond e rw rb).input = s.input := rfl

@[simp] theorem State.respond_output (s : State) (e : Status) (rw : List Word) (rb : List Byte) :
    (s.respond e rw rb).output = s.output ++ [⟨e, rw, rb⟩] := rfl

@[simp] theorem State.raise_engine (s : State) (e : Status) : (s.raise e).engine = s.engine := rfl

@[simp] theorem State.raise_input (s : State) (e : Status) : (s.raise e).input = s.input := rfl

@[simp] theorem State.raise_output (s : State) (e : Status) : (s.raise e).output = s.output ++ [⟨e, [], []⟩] := rfl

@[simp] theorem State.resetCore_engine (s : State) : s.resetCore.engine = DigestState.initial := rfl

@[simp] theorem State.resetCore_input (s : State) : s.resetCore.input = s.input := rfl

@[simp] theorem State.resetCore_output (s : State) : s.resetCore.output = s.output := rfl

@[simp] theorem State.reset_engine : State.reset.engine = DigestState.initial := rfl

@[simp] theorem State.reset_input : State.reset.input = [] := rfl

@[simp] theorem State.reset_output : State.reset.output = [] := rfl

@[simp] theorem DigestState.initial_acc : DigestState.initial.acc = initialAccumulators := rfl

@[simp] theorem DigestState.initial_len : DigestState.initial.len = 0 := rfl

@[simp] theorem DigestState.initial_phase : DigestState.initial.phase = phaseCreated := rfl

end Sys2Proof.Machine
end

