-- ==== Sys2Proof/Laws/Phase.lean ====
section
/-! SUPPORT. The reading of PHASE, and everything `unlessFinalized` can do (spec/60_exceptions.md R203). -/

namespace Sys2Proof.Machine

theorem isFinalized_iff (e : DigestState) : e.isFinalized = true ↔ e.phase = phaseFinalized := by
  simp [DigestState.isFinalized]

theorem phaseLegal_iff (e : DigestState) : e.phaseLegal = true ↔ e.phase ≠ phaseUndefined := by
  simp [DigestState.phaseLegal]

theorem isFinalized_eq_false (e : DigestState) : e.isFinalized = false ↔ e.phase ≠ phaseFinalized := by
  rw [← Bool.not_eq_true, isFinalized_iff]

/-- A 2-bit PHASE holds one of four values (R26). -/
theorem phase_cases (p : PhaseReg) :
    p = phaseCreated ∨ p = phaseUpdating ∨ p = phaseFinalized ∨ p = phaseUndefined := by
  revert p; decide

/-- In FINALIZED the guard answers MISUSE, whatever the body is. -/
theorem unlessFinalized_misuse {s : State} (h : s.engine.phase = phaseFinalized)
    (body : Host.Outcome State Fault Refusal) : s.unlessFinalized body = .next (s.raise .misuse) := by
  simp [State.unlessFinalized, DigestState.isFinalized, h]

/-- In CREATED and UPDATING the guard is its body. -/
theorem unlessFinalized_body {s : State} (h2 : s.engine.phase ≠ phaseFinalized) (h3 : s.engine.phase ≠ phaseUndefined)
    (body : Host.Outcome State Fault Refusal) : s.unlessFinalized body = body := by
  simp [State.unlessFinalized, DigestState.isFinalized, DigestState.phaseLegal, h2, h3]

/-- At the value that never occurs the guard is stuck. -/
theorem unlessFinalized_stuck {s : State} (h : s.engine.phase = phaseUndefined)
    (body : Host.Outcome State Fault Refusal) : s.unlessFinalized body = .fault .phaseUndefined := by
  simp [State.unlessFinalized, DigestState.isFinalized, DigestState.phaseLegal, h, phaseUndefined, phaseFinalized]

/-- Everything the guard can answer with a next state. -/
theorem unlessFinalized_next {s t : State} {body : Host.Outcome State Fault Refusal}
    (h : s.unlessFinalized body = .next t) :
    (s.engine.phase = phaseFinalized ∧ t = s.raise .misuse)
      ∨ (s.engine.phase ≠ phaseFinalized ∧ s.engine.phase ≠ phaseUndefined ∧ body = .next t) := by
  by_cases h2 : s.engine.phase = phaseFinalized
  · rw [unlessFinalized_misuse h2] at h
    exact .inl ⟨h2, by simpa using h.symm⟩
  · by_cases h3 : s.engine.phase = phaseUndefined
    · rw [unlessFinalized_stuck h3] at h
      simp at h
    · rw [unlessFinalized_body h2 h3] at h
      exact .inr ⟨h2, h3, h⟩

end Sys2Proof.Machine
end

