-- ==== Sys2Proof/Laws/Exec.lean ====
section
/-! SUPPORT. Everything UPDATE and FINALIZE can answer with a next state (spec/42_engine.md R147, R148, R150). -/

namespace Sys2Proof.Machine

theorem State.Live.ne_finalized {s : State} (h : s.Live) : s.engine.phase ≠ phaseFinalized := by
  rcases h with h | h <;> rw [h] <;> decide

theorem State.Live.ne_undefined {s : State} (h : s.Live) : s.engine.phase ≠ phaseUndefined := by
  rcases h with h | h <;> rw [h] <;> decide

/-- A legal PHASE that is not FINALIZED is CREATED or UPDATING (R26). -/
theorem live_of_ne {s : State} (h2 : s.engine.phase ≠ phaseFinalized) (h3 : s.engine.phase ≠ phaseUndefined) :
    s.Live := by
  rcases phase_cases s.engine.phase with h | h | h | h
  · exact .inl h
  · exact .inr h
  · exact absurd h h2
  · exact absurd h h3

/-- UPDATE answers BAD_OPERAND, MISUSE, OK without absorbing (N = 0), or OK after absorbing. -/
theorem execUpdate_next {n : BitVec 24} {pb : List Byte} {s t : State} (h : execUpdate n pb s = .next t) :
    (pb.length ≠ n.toNat ∧ t = s.raise .badOperand)
      ∨ (pb.length = n.toNat ∧ s.engine.phase = phaseFinalized ∧ t = s.raise .misuse)
      ∨ (pb.length = n.toNat ∧ s.Live ∧ n = 0 ∧ t = s.respond .ok [] [])
      ∨ (pb.length = n.toNat ∧ s.Live ∧ n ≠ 0
          ∧ t = { s with engine := { absorb s.engine pb with phase := phaseUpdating } }.respond .ok [] []) := by
  unfold execUpdate at h
  split at h
  · rename_i hn
    rcases unlessFinalized_next h with ⟨hf, ht⟩ | ⟨hf, hu, hb⟩
    · exact .inr (.inl ⟨hn, hf, ht⟩)
    · split at hb
      · rename_i h0
        exact .inr (.inr (.inl ⟨hn, live_of_ne hf hu, h0, by simpa using hb.symm⟩))
      · rename_i h0
        exact .inr (.inr (.inr ⟨hn, live_of_ne hf hu, h0, by simpa using hb.symm⟩))
  · rename_i hn
    exact .inl ⟨hn, by simpa using h.symm⟩

/-- FINALIZE answers MISUSE, or OK with the digest after both of its Absorbs. -/
theorem execFinalize_next {s t : State} (h : execFinalize s = .next t) :
    (s.engine.phase = phaseFinalized ∧ t = s.raise .misuse)
      ∨ (s.Live
          ∧ t = { s with engine := { padAndLength s.engine with phase := phaseFinalized } }.respond .ok []
              (digestBytes (padAndLength s.engine).acc)) := by
  unfold execFinalize at h
  rcases unlessFinalized_next h with ⟨hf, ht⟩ | ⟨hf, hu, hb⟩
  · exact .inl ⟨hf, ht⟩
  · exact .inr ⟨live_of_ne hf hu, by simpa using hb.symm⟩

end Sys2Proof.Machine
end

