-- ==== Sys2Proof/Laws/Params.lean ====
section
/-! SUPPORT. The parameters of spec/00_scope.md R7 are the sizes the model is written with. -/

namespace Sys2Proof.Machine

theorem block_bytes (blk : Block) : blk.toList.length = Config.blockBytes := by
  simp [Config.blockBytes]

theorem buf_bytes (e : DigestState) : e.buf.toList.length = Config.bufBytes := by
  simp [Config.bufBytes]

/-- `ROUNDS`: Compress performs them all. -/
theorem compressBlock_rounds (s : Accumulators) (blk : Block) :
    compressBlock s blk = feedForward s (roundsUpTo blk Config.rounds (Nat.le_refl 64) s) := rfl

/-- `DIGEST_BYTES`. -/
theorem digestBytes_length (v : Accumulators) : (digestBytes v).length = Config.digestBytes := by
  simp [digestBytes, Config.digestBytes]

/-- `LENFIELD_BYTES`. -/
theorem lengthField_length (l : BitVec 64) : (lengthField l).length = Config.lenFieldBytes := by
  simp [lengthField, Config.lenFieldBytes]

/-- `PAD_TARGET`: padding brings any fill to 56 modulo 64, with 1 to 64 bytes (R151). -/
theorem padLen_spec (f : Nat) (h : f < 64) :
    1 ≤ padLen f ∧ padLen f ≤ 64 ∧ (f + padLen f) % Config.blockBytes = Config.padTarget := by
  unfold padLen Config.blockBytes Config.padTarget
  split <;> omega

theorem padding_length (f : Nat) (h : f < 64) : (padding f).length = padLen f := by
  have := padLen_spec f h
  simp [padding]
  omega

/-- `MAX_CHUNK` is the largest count the 24-bit ARG field holds (D5). -/
theorem maxChunk_eq : Config.maxChunk = (BitVec.allOnes 24).toNat := by decide

/-- `NUM_INSTANCES` is at least 1 (R213). -/
theorem numInstances_pos : 0 < Config.numInstances := Nat.succ_pos _

end Sys2Proof.Machine
end

