-- ==== Sys2Proof/Laws/PerInstr.lean ====
section
/-! SUPPORT. One lemma per command: the encoding of a well-formed command is a well-formed transaction of its own row
(spec/30_encoding.md R63, R64). -/

namespace Sys2Proof.Laws.EncodedShape

/-- The transaction of a well-formed command has its row's OPC and passes R64's three checks. -/
def Statement (i : Instr) : Prop :=
  i.wellFormed = true → opcField (encode i).cmd = i.opcode.toByte ∧ ShapeOk i.opcode (encode i)

theorem init : Statement .init := fun _ => by
  refine ⟨?_, ?_, ?_, ?_⟩ <;> simp [encode, Instr.opcode, ArgOk, PwOk, PbOk, Opcode.pwCount, Opcode.pbCount]

theorem update (n : BitVec 24) (pb : List Byte) : Statement (.update n pb) := fun h => by
  have hn : pb.length = n.toNat := by simpa [Instr.wellFormed] using h
  refine ⟨?_, ?_, ?_, ?_⟩ <;>
    simp [encode, Instr.opcode, ArgOk, PwOk, PbOk, Opcode.pwCount, Opcode.pbCount, Opcode.format, hn]

theorem finalize : Statement .finalize := fun _ => by
  refine ⟨?_, ?_, ?_, ?_⟩ <;> simp [encode, Instr.opcode, ArgOk, PwOk, PbOk, Opcode.pwCount, Opcode.pbCount]

theorem decw (pb : Vector Byte 4) : Statement (.decw pb) := fun _ => by
  refine ⟨?_, ?_, ?_, ?_⟩ <;> simp [encode, Instr.opcode, ArgOk, PwOk, PbOk, Opcode.pwCount, Opcode.pbCount]

theorem encw (w : Word) : Statement (.encw w) := fun _ => by
  refine ⟨?_, ?_, ?_, ?_⟩ <;> simp [encode, Instr.opcode, ArgOk, PwOk, PbOk, Opcode.pwCount, Opcode.pbCount]

theorem compress (st : Accumulators) (blk : Block) : Statement (.compress st blk) := fun _ => by
  refine ⟨?_, ?_, ?_, ?_⟩ <;> simp [encode, Instr.opcode, ArgOk, PwOk, PbOk, Opcode.pwCount, Opcode.pbCount]

end Sys2Proof.Laws.EncodedShape
end

