-- ==== Sys2Proof/Laws/Shapes.lean ====
section
/-! SUPPORT. The numbers of spec/30_encoding.md R63, R64 and spec/60_exceptions.md R202 against the opcode map. -/

namespace Sys2Proof.Machine

theorem legalOpc_iff (b : Byte) : LegalOpc b ↔ ∃ op : Opcode, op.toByte = b := by
  constructor
  · rintro (rfl | rfl | rfl | rfl | rfl | rfl)
    exacts [⟨.init, rfl⟩, ⟨.update, rfl⟩, ⟨.finalize, rfl⟩, ⟨.decw, rfl⟩, ⟨.encw, rfl⟩, ⟨.compress, rfl⟩]
  · rintro ⟨op, rfl⟩
    cases op <;> simp [LegalOpc, Opcode.toByte]

/-- R202's list of wrong shapes is R64's three checks. -/
theorem wellShaped_iff {t : Transaction} {op : Opcode} (h : op.toByte = opcField t.cmd) :
    WellShaped t ↔ ShapeOk op t := by
  have key : WellShaped t ↔
      (op.toByte ≠ 0x02 → argField t.cmd = 0)
        ∧ (t.pw.length = if op.toByte = 0x11 then 1 else if op.toByte = 0x12 then 4 else 0)
        ∧ (t.pb.length = if op.toByte = 0x02 then (argField t.cmd).toNat
            else if op.toByte = 0x10 then 4 else if op.toByte = 0x12 then 64 else 0) := by
    rw [h]
    exact ⟨fun w => ⟨w.arg, w.pw, w.pb⟩, fun w => ⟨w.1, w.2.1, w.2.2⟩⟩
  rw [key]
  cases op <;> simp [Opcode.toByte, ShapeOk, ArgOk, PwOk, PbOk, Opcode.format, Opcode.pwCount, Opcode.pbCount]

end Sys2Proof.Machine
end

