-- ==== Sys2Proof/Laws/Step.lean ====
section
/-! SUPPORT. The step and the command stream (spec/20_memory.md R48). -/

namespace Sys2Proof.Machine

/-- The core waits while the host does nothing. -/
theorem step_idle {s : State} (h : s.input = []) : step s = .next s := by
  simp [step, State.takeNext, h]

/-- A step is the host's next event, with that event taken off the stream. -/
theorem step_event {s : State} {ev : HostEvent} {rest : List HostEvent} (h : s.input = ev :: rest) :
    step s = State.takeEvent { s with input := rest } ev := by
  simp [step, State.takeNext, h]

@[simp] theorem takeEvent_command (s : State) (t : Transaction) : s.takeEvent (.command t) = s.runTransaction t := rfl

@[simp] theorem takeEvent_reset (s : State) : s.takeEvent .reset = .next s.resetCore := rfl

@[simp] theorem takeEvent_resetDuring (s : State) (t : Transaction) : s.takeEvent (.resetDuring t) = .next s.resetCore :=
  rfl

theorem runTransaction_ok {s : State} {t : Transaction} {i : Instr} (h : decode t = .ok i) :
    s.runTransaction t = exec i s := by
  simp [State.runTransaction, h]

theorem runTransaction_error {s : State} {t : Transaction} {r : DecodeReject} (h : decode t = .error r) :
    s.runTransaction t = .next (s.raise (Status.ofReject r)) := by
  simp [State.runTransaction, h]

/-- Running one step and then the rest. -/
theorem run_succ_next {k : Nat} {s t : State} (h : step s = .next t) : core.run (k + 1) s = core.run k t := by
  have : core.step s = .next t := h
  simp [Host.Core.run, this]

end Sys2Proof.Machine
end

