-- ==== Sys2Proof/Laws/Transform.lean ====
section
/-! SUPPORT. The transform's tables and its loop (spec/41_compress.md). -/

namespace Sys2Proof.Machine

/-- R118, U10: a rotation by 0, or by 32 or more, never occurs. -/
theorem rotationAmount_bounds (i : Fin 64) : 1 ≤ rotationAmount i ∧ rotationAmount i ≤ 31 := by
  revert i; decide

/-- R114 on bits, for the amounts it is defined for. -/
theorem rotateLeft_eq (x : Word) (s : Nat) (h1 : 1 ≤ s) (h2 : s ≤ 31) : rotateLeft x s = x.rotateLeft s := by
  rw [rotateLeft, BitVec.rotateLeft_def, Nat.mod_eq_of_lt (by omega)]

@[simp] theorem roundsUpTo_zero (blk : Block) (h : 0 ≤ 64) (v : Accumulators) : roundsUpTo blk 0 h v = v := rfl

theorem roundsUpTo_succ (blk : Block) (k : Nat) (h : k + 1 ≤ 64) (v : Accumulators) :
    roundsUpTo blk (k + 1) h v = roundStep blk ⟨k, h⟩ (roundsUpTo blk k (by omega) v) := rfl

@[simp] theorem fixedRolesUpTo_zero (blk : Block) (h : 0 ≤ 64) (v : Accumulators) : fixedRolesUpTo blk 0 h v = v := rfl

theorem fixedRolesUpTo_succ (blk : Block) (k : Nat) (h : k + 1 ≤ 64) (v : Accumulators) :
    fixedRolesUpTo blk (k + 1) h v = fixedRoleStep blk ⟨k, h⟩ (fixedRolesUpTo blk k (by omega) v) := rfl

end Sys2Proof.Machine
end

