-- ==== Sys2Proof/Laws/Transport.lean ====
section
/-! SUPPORT. What a transport delivers, and everything the readers of a stream of beats can answer (spec/30_encoding.md
R60, R69). -/

namespace Sys2Proof.Machine

/-- A frame sent over a transport runs as the transaction that was sent. -/
theorem runFrame_sendCommand (τ : CmdTransport) (s : State) (t : Transaction) :
    s.runFrame τ (τ.sendCommand t) = s.runTransaction t := by
  rw [State.runFrame, τ.command_arrives]

/-- The host takes off the wires the responses that were delivered. -/
theorem takeResponse_responseFrames (τ : CmdTransport) (s : State) :
    (s.responseFrames τ).map τ.takeResponse = s.output := by
  simp [State.responseFrames, Function.comp_def, τ.response_arrives]

/-- Words sent are the words taken. -/
theorem takeWords_append (ws : List Word) (bs : List Beat) :
    takeWords ws.length (ws.map .word ++ bs) = some (ws, bs) := by
  induction ws with
  | nil => rfl
  | cons w ws ih => simp [takeWords, ih]

/-- Bytes sent are the bytes taken. -/
theorem takeBytes_append (xs : List Byte) (bs : List Beat) :
    takeBytes xs.length (xs.map .byte ++ bs) = some (xs, bs) := by
  induction xs with
  | nil => rfl
  | cons x xs ih => simp [takeBytes, ih]

/-- Everything `takeWords` can answer: as many words as asked for, and what stood after them. -/
theorem takeWords_some {n : Nat} {bs rest : List Beat} {ws : List Word} (h : takeWords n bs = some (ws, rest)) :
    ws.length = n ∧ bs = ws.map .word ++ rest := by
  induction n generalizing bs ws with
  | zero => simp only [takeWords, Option.some.injEq, Prod.mk.injEq] at h; obtain ⟨rfl, rfl⟩ := h; simp
  | succ n ih =>
    match bs with
    | [] => simp [takeWords] at h
    | .byte _ :: _ => simp [takeWords] at h
    | .word w :: bs =>
      simp only [takeWords, Option.map_eq_some_iff, Prod.mk.injEq] at h
      obtain ⟨⟨ws', rest'⟩, h', rfl, rfl⟩ := h
      obtain ⟨rfl, rfl⟩ := ih h'
      simp

/-- Everything `takeBytes` can answer: as many bytes as asked for, and what stood after them. -/
theorem takeBytes_some {n : Nat} {bs rest : List Beat} {xs : List Byte} (h : takeBytes n bs = some (xs, rest)) :
    xs.length = n ∧ bs = xs.map .byte ++ rest := by
  induction n generalizing bs xs with
  | zero => simp only [takeBytes, Option.some.injEq, Prod.mk.injEq] at h; obtain ⟨rfl, rfl⟩ := h; simp
  | succ n ih =>
    match bs with
    | [] => simp [takeBytes] at h
    | .word _ :: _ => simp [takeBytes] at h
    | .byte x :: bs =>
      simp only [takeBytes, Option.map_eq_some_iff, Prod.mk.injEq] at h
      obtain ⟨⟨xs', rest'⟩, h', rfl, rfl⟩ := h
      obtain ⟨rfl, rfl⟩ := ih h'
      simp

end Sys2Proof.Machine
end

