-- ==== Sys2Proof/Tests/Slice0.lean ====
section
/-! SUPPORT. Small tests, each expected value from spec/95_test_vectors.md (named V-...) or from the rule named, and a
witness for the hypotheses of every obligation that has any. -/

open Sys2Proof Sys2Proof.Machine

namespace Sys2Proof.Tests

-- One kernel evaluation at a time: many at once need more threads than the check's memory limit allows.
set_option Elab.async false

/-! ### Helpers -/

/-- The next state of an outcome, or the state itself where there is none. -/
def nextOf (s : State) : Host.Outcome State Fault Refusal → State
  | .next t => t
  | .fault _ => s
  | .refused _ => s

/-- Whether an outcome is a next state. -/
def isNext : Host.Outcome State Fault Refusal → Bool
  | .next _ => true
  | .fault _ => false
  | .refused _ => false

/-- The state after one command, from `s`. -/
def after (s : State) (i : Instr) : State := nextOf s (exec i s)

/-- The state after one step on a transaction, from `s`. -/
def stepOn (s : State) (t : Transaction) : State := nextOf s (step (s.withNextCommand t))

/-- A spent state: the IV, LEN = 0 and PHASE = FINALIZED. -/
def spent : State := { State.reset with engine := { DigestState.initial with phase := phaseFinalized } }

/-- A state in PHASE = 3. -/
def stuck : State := { State.reset with engine := { DigestState.initial with phase := phaseUndefined } }

/-- A state with bytes pending and stale bytes that are not zero. -/
def busy : State :=
  { State.reset with
    engine := { DigestState.initial with len := 0x18, phase := phaseUpdating, buf := Vector.replicate 64 0x61 } }

/-- "abc" and the state of V-ENG-26. -/
def abc : List Byte := [0x61, 0x62, 0x63]

def afterAbc : State := after State.reset (.update 3 abc)

/-- The padded "abc": the block of V-CMP-2. -/
def abcBlock : Block :=
  ⟨⟨[0x61, 0x62, 0x63, 0x80] ++ List.replicate 52 0x00 ++ [0x18, 0, 0, 0, 0, 0, 0, 0]⟩, by decide⟩

/-- The padded empty message: the block of V-CMP-1. -/
def emptyBlock : Block := ⟨⟨0x80 :: List.replicate 63 0x00⟩, by decide⟩

/-! ### WellFormed: an ill-formed term for each check -/

theorem test_update_short_payload_is_ill_formed : (Instr.update 2 [0x78]).wellFormed = false := by decide

theorem test_update_long_payload_is_ill_formed : (Instr.update 2 [0x78, 0x79, 0x7A]).wellFormed = false := by decide

/-- R64 `arg_ok`: V-ERR-4 and V-COD-10. -/
theorem test_arg_check : decode ⟨0x00000101, [], []⟩ = .error .badOperand
    ∧ decode ⟨0x00000110, [], [0, 0, 0, 0]⟩ = .error .badOperand := by decide +kernel

/-- R64 `pw_ok`: V-ERR-6 and V-COD-9. -/
theorem test_pw_check : decode ⟨0x00000002, [1], []⟩ = .error .badOperand
    ∧ decode ⟨0x00000011, [], []⟩ = .error .badOperand := by decide +kernel

/-- R64 `pb_ok`: V-ERR-5, V-COD-8 and V-CMP-6. -/
theorem test_pb_check : decode ⟨0x00000202, [], [1, 2, 3]⟩ = .error .badOperand
    ∧ decode ⟨0x00000010, [], [1, 2, 3]⟩ = .error .badOperand
    ∧ decode ⟨0x00000012, [1, 2, 3, 4], List.replicate 63 0⟩ = .error .badOperand := by decide +kernel

/-! ### Decoding: words written out from R63 and R70 -/

theorem test_decode_init : decodeTableWord 32 0x00000001 = some .init := by decide +kernel

theorem test_decode_update : decode ⟨0x00000302, [], abc⟩ = .ok (.update 3 abc) := by decide +kernel

theorem test_decode_update_zero : decodeTableWord 32 0x00000002 = some (.update 0 []) := by decide +kernel

/-- ARG reaches its top bit: N = 0x800001 asks for that many bytes (R61). -/
theorem test_payload_of_high_arg : payloadShape 0x80000102 = (0, 0x800001) := by decide +kernel

theorem test_decode_finalize : decodeTableWord 32 0x00000003 = some .finalize := by decide +kernel

theorem test_decode_decw : decode ⟨0x00000010, [], [0x78, 0x56, 0x34, 0x12]⟩
    = .ok (.decw #v[0x78, 0x56, 0x34, 0x12]) := by decide +kernel

theorem test_decode_encw : decode ⟨0x00000011, [0x67452301], []⟩ = .ok (.encw 0x67452301) := by decide +kernel

theorem test_decode_compress : decode ⟨0x00000012, [1, 2, 3, 4], List.replicate 64 0x05⟩
    = .ok (.compress ⟨1, 2, 3, 4⟩ (Vector.replicate 64 0x05)) := by decide +kernel

theorem test_decode_compress_table_word : (decodeTableWord 32 0x00000012).isSome = true := by decide +kernel

/-- R66: the ends of the illegal ranges. -/
theorem test_decode_illegal : [0x00, 0x04, 0x0F, 0x13, 0xFF].map (decodeTableWord 32)
    = [none, none, none, none, none] := by decide +kernel

/-! ### Codec -/

/-- V-COD-1, V-COD-2. -/
theorem test_decw : (after State.reset (.decw #v[0x78, 0x56, 0x34, 0x12])).output = [⟨.ok, [0x12345678], []⟩]
    ∧ (after State.reset (.decw #v[0xFF, 0x00, 0x00, 0x80])).output = [⟨.ok, [0x800000FF], []⟩] := by decide +kernel

/-- V-COD-11: DECW in FINALIZED. -/
theorem test_decw_spent : (after spent (.decw #v[0x78, 0x56, 0x34, 0x12])).output = [⟨.ok, [0x12345678], []⟩]
    ∧ (after spent (.decw #v[0x78, 0x56, 0x34, 0x12])).engine.phase = phaseFinalized := by decide +kernel

/-- V-COD-6, V-COD-7. -/
theorem test_encw : (after State.reset (.encw 0xDEADBEEF)).output = [⟨.ok, [], [0xEF, 0xBE, 0xAD, 0xDE]⟩]
    ∧ (after State.reset (.encw 0x80000000)).output = [⟨.ok, [], [0x00, 0x00, 0x00, 0x80]⟩] := by decide +kernel

/-! ### Transform -/

/-- V-ROT-1, V-ROT-3, V-ROT-4. -/
theorem test_rotate : rotateLeft 0x80000001 7 = 0x000000C0 ∧ rotateLeft 0xFFFFFFFF 23 = 0xFFFFFFFF
    ∧ rotateLeft 0x00000001 21 = 0x00200000 := by decide +kernel

/-- V-FN-1. -/
theorem test_mix : mixF 0xFF00FF00 0xF0F0F0F0 0xCCCCCCCC = 0xF0CCF0CC
    ∧ mixG 0xFF00FF00 0xF0F0F0F0 0xCCCCCCCC = 0xFC30FC30
    ∧ mixH 0xFF00FF00 0xF0F0F0F0 0xCCCCCCCC = 0xC33CC33C
    ∧ mixI 0xFF00FF00 0xF0F0F0F0 0xCCCCCCCC = 0x0FC30FC3 := by decide +kernel

/-- The round trace of V-CMP-1 after rounds 0 and 16. -/
theorem test_round_trace :
    roundsUpTo emptyBlock 1 (by decide) initialAccumulators = ⟨0x10325476, 0xA5202774, 0xEFCDAB89, 0x98BADCFE⟩
      ∧ roundsUpTo emptyBlock 17 (by decide) initialAccumulators
          = ⟨0x374943A7, 0x1C7D7513, 0xD6819C6A, 0x5AA53F75⟩ := by decide +kernel

/-- V-CMP-2. -/
theorem test_compress_abc : compressBlock initialAccumulators abcBlock
    = ⟨0x98500190, 0xB04FD23C, 0x7D3F96D6, 0x727FE128⟩ := by decide +kernel

/-- V-CMP-3: COMPRESS of an all-zero state and block. -/
theorem test_compress_zeros : (after State.reset (.compress ⟨0, 0, 0, 0⟩ (Vector.replicate 64 0x00))).output
    = [⟨.ok, [0xF7CD1C97, 0xA5483681, 0x2B68D832, 0xF90CA639], []⟩] := by decide +kernel

/-! ### Engine -/

/-- R146's example: INIT in the middle of a message. -/
theorem test_init : (after busy .init).engine = DigestState.initial ∧ (after busy .init).output = [okResponse] := by
  decide +kernel

/-- V-ENG-26. -/
theorem test_update_abc : afterAbc.engine.acc = initialAccumulators ∧ afterAbc.engine.len = 0x18
    ∧ fill afterAbc.engine.len = 3 ∧ afterAbc.engine.buf.toList.take 3 = abc
    ∧ afterAbc.engine.phase = phaseUpdating ∧ afterAbc.output = [okResponse] := by decide +kernel

/-- P2 step 3: 33 bytes with 32 pending: one transform, one byte left over. -/
theorem test_update_completes_block :
    let s := { State.reset with
      engine := { DigestState.initial with len := 0x100, phase := phaseUpdating, buf := Vector.replicate 64 0x61 } }
    let t := after s (.update 33 (List.replicate 33 0x61))
    t.engine.acc = ⟨0x89D4FF56, 0x125CD962, 0x69CADE33, 0x0033E325⟩ ∧ t.engine.len = 0x208
      ∧ t.engine.buf.toList.take 1 = [0x61] := by decide +kernel

/-- V-SRC-3, P1: the digest of "abc", and the end state of P1. -/
theorem test_finalize_abc : (after afterAbc .finalize).output
      = [okResponse, ⟨.ok, [], [0x90, 0x01, 0x50, 0x98, 0x3c, 0xd2, 0x4f, 0xb0, 0xd6, 0x96, 0x3f, 0x7d, 0x28, 0xe1, 0x7f,
          0x72]⟩]
    ∧ (after afterAbc .finalize).engine.len = 0x200
    ∧ (after afterAbc .finalize).engine.phase = phaseFinalized := by decide +kernel

/-- P5: with 56 bytes pending FINALIZE runs two transforms. -/
theorem test_finalize_two_transforms :
    let s := { State.reset with
      engine := { DigestState.initial with len := 0x1C0, phase := phaseUpdating, buf := Vector.replicate 64 0x61 } }
    (after s .finalize).engine.acc = ⟨0xC78A0C3B, 0xB028F803, 0x70196C4C, 0x1872D106⟩
      ∧ (transformBlocks .finalize s).length = 2 := by decide +kernel

/-- V-LEN-1, V-LEN-3. -/
theorem test_len_carry : advanceLen 0x00000000FFFFFFF8 1 = 0x0000000100000000
    ∧ advanceLen 0xFFFFFFFFFFFFFFF8 1 = 0 := by decide +kernel

/-- V-ENG-3, V-ENG-4, V-ENG-6: fill and transforms of an Absorb with 10 bytes pending. -/
theorem test_absorb_counts :
    let e := { DigestState.initial with len := 0x50 }
    [53, 54, 118].map (fun n => ((absorbedBlocks e (List.replicate n 0)).length, fill (advanceLen e.len n)))
      = [(0, 63), (1, 0), (2, 0)] := by decide +kernel

/-! ### Errors and the step -/

/-- V-ERR-7, V-ERR-9, V-ERR-10: in FINALIZED. -/
theorem test_errors_when_spent : (stepOn spent ⟨0x00000003, [], []⟩).output = [⟨.misuse, [], []⟩]
    ∧ (stepOn spent ⟨0x00000002, [], []⟩).output = [⟨.misuse, [], []⟩]
    ∧ (stepOn spent ⟨0x00000103, [], []⟩).output = [⟨.badOperand, [], []⟩]
    ∧ (stepOn spent ⟨0x00000103, [], []⟩).engine = spent.engine := by decide +kernel

/-- V-ERR-3, V-ERR-5. -/
theorem test_errors_when_created : (stepOn State.reset ⟨0x000000FF, [], [1, 2, 3, 4, 5]⟩).output
      = [⟨.illegalOpcode, [], []⟩]
    ∧ (stepOn State.reset ⟨0x00000202, [], [1, 2, 3]⟩).output = [⟨.badOperand, [], []⟩]
    ∧ (stepOn State.reset ⟨0x00000202, [], [1, 2, 3]⟩).engine.len = 0 := by decide +kernel

/-- R222: a reset that cuts a command off leaves the reset state and no response. -/
theorem test_reset_during_command :
    let t := nextOf busy (step { busy with input := [.resetDuring ⟨0x00000003, [], []⟩] })
    t.engine = DigestState.initial ∧ t.output = [] ∧ t.input = [] := by decide +kernel

/-- The first command after reset, by its table word (DECW of four zero bytes). -/
theorem test_with_fetch_word : (nextOf State.reset (step (State.reset.withFetchWord 32 0x00000010))).output
    = [⟨.ok, [0x00000000], []⟩] := by decide +kernel

/-- P1 as text. -/
theorem test_assemble_text :
    assembleText ['I', 'N', 'I', 'T', '\n', 'U', 'P', 'D', 'A', 'T', 'E', ' ', '"', 'a', 'b', '"', ' ', '+', '+', ' ',
        '[', '0', 'x', '6', '3', ']', '\n', 'F', 'I', 'N', 'A', 'L', 'I', 'Z', 'E', '\n']
      = some [⟨0x00000001, [], []⟩, ⟨0x00000302, [], abc⟩, ⟨0x00000003, [], []⟩] := by decide +kernel

/-- R71: `UPDATE_LONG` of no bytes expands to nothing; a `HASH` of no bytes is INIT and FINALIZE. -/
theorem test_pseudo_commands : (AsmLine.updateLong (.zeros 0)).assemble = some []
    ∧ (AsmLine.hash (.ascii [])).assemble = some [⟨0x00000001, [], []⟩, ⟨0x00000003, [], []⟩] := by decide +kernel

/-! ### Witnesses: states and operands that meet each obligation's hypotheses -/

theorem witness_DecodeOfEncode : (Instr.update 3 abc).wellFormed = true ∧ (Instr.update 0 []).wellFormed = true := by
  decide

theorem witness_EncodeOfDecode : decode ⟨0x00000302, [], abc⟩ = .ok (.update 3 abc) := test_decode_update

/-- R67's three cases; UPDATE's shape at N = 0, and a shape wrong in one byte. -/
theorem witness_DecodeIsTotal : ¬ LegalOpc (opcField 0x00000004)
    ∧ (LegalOpc (opcField 0x00000302) ∧ ¬ WellShaped ⟨0x00000302, [], [0x61]⟩)
    ∧ (LegalOpc (opcField 0x00000002) ∧ WellShaped ⟨0x00000002, [], []⟩) := by
  refine ⟨?_, ⟨?_, fun h => ?_⟩, ?_, ⟨?_, ?_, ?_⟩⟩
  · unfold LegalOpc; decide +kernel
  · unfold LegalOpc; decide +kernel
  · exact absurd h.pb (by decide +kernel)
  · unfold LegalOpc; decide +kernel
  · decide +kernel
  · decide +kernel
  · decide +kernel

/-- The other five opcodes, each well shaped. -/
theorem witness_DecodeIsTotal_format_z :
    WellShaped ⟨0x00000001, [], []⟩ ∧ WellShaped ⟨0x00000003, [], []⟩ ∧ WellShaped ⟨0x00000010, [], [1, 2, 3, 4]⟩
      ∧ WellShaped ⟨0x00000011, [1], []⟩ ∧ WellShaped ⟨0x00000012, [1, 2, 3, 4], List.replicate 64 0⟩ := by
  refine ⟨⟨?_, ?_, ?_⟩, ⟨?_, ?_, ?_⟩, ⟨?_, ?_, ?_⟩, ⟨?_, ?_, ?_⟩, ⟨?_, ?_, ?_⟩⟩ <;> decide +kernel

/-- Also of BadOperandIsRefused: each of R202's three checks failing alone. -/
theorem witness_BadOperandIsRefused :
    (LegalOpc (opcField 0x00000103) ∧ ¬ WellShaped ⟨0x00000103, [], []⟩)
      ∧ (LegalOpc (opcField 0x00000011) ∧ ¬ WellShaped ⟨0x00000011, [], []⟩)
      ∧ (LegalOpc (opcField 0x00000010) ∧ ¬ WellShaped ⟨0x00000010, [], [1, 2, 3]⟩) := by
  refine ⟨⟨?_, fun h => ?_⟩, ⟨?_, fun h => ?_⟩, ?_, fun h => ?_⟩
  · unfold LegalOpc; decide +kernel
  · exact absurd (h.arg (by decide +kernel)) (by decide +kernel)
  · unfold LegalOpc; decide +kernel
  · exact absurd h.pw (by decide +kernel)
  · unfold LegalOpc; decide +kernel
  · exact absurd h.pb (by decide +kernel)

/-- R114's range at both ends. -/
theorem witness_RotateLeftMovesBits : (1 ≤ 1 ∧ 1 ≤ 31) ∧ (1 ≤ 31 ∧ 31 ≤ 31) := by decide

theorem witness_ResetBetweenAndDuringCommands :
    (HostEvent.reset = .reset ∨ ∃ cut, HostEvent.reset = .resetDuring cut)
      ∧ (HostEvent.resetDuring ⟨3, [], []⟩ = .reset ∨ ∃ cut, HostEvent.resetDuring ⟨3, [], []⟩ = .resetDuring cut) :=
  ⟨.inl rfl, .inr ⟨_, rfl⟩⟩

theorem witness_NumberedRegistersAndBufAreTheState :
    (∀ r, busy.engine.stateReg r = busy.engine.stateReg r) ∧ busy.engine.buf = busy.engine.buf := ⟨fun _ => rfl, rfl⟩

/-- R141's largest UPDATE. -/
theorem witness_LengthCounterOnHalves : 2 ^ 24 - 1 ≤ 2 ^ 24 - 1 := by decide

/-- R142 and R143 where they meet: 60 and 61 bytes with 3 pending. -/
theorem witness_AbsorbOnlyBuffers : (List.replicate 60 (0x61 : Byte)).length < space busy.engine.len := by decide +kernel

theorem witness_AbsorbCompletesBlocks : space busy.engine.len ≤ (List.replicate 61 (0x61 : Byte)).length := by
  decide +kernel

/-- Two states that differ in a stale byte only, and a command that runs in one of them. -/
theorem witness_StaleBytesAreNeverRead :
    busy.engine.SameButStale { busy.engine with buf := busy.engine.buf.set 63 0x00 }
      ∧ busy.engine.buf ≠ busy.engine.buf.set 63 0x00
      ∧ isNext (exec .finalize busy) = true := by
  refine ⟨⟨rfl, rfl, ?_, rfl⟩, ?_, ?_⟩ <;> decide +kernel

theorem busy_live : busy.Live := .inr rfl

theorem reset_live : State.reset.Live := .inl rfl

/-- N = 1, the least count that is absorbed, in UPDATING and in CREATED; and a payload one byte short. -/
theorem witness_UpdateAbsorbsItsPayload :
    ([0x78] : List Byte).length = (1 : BitVec 24).toNat ∧ (1 : BitVec 24) ≠ 0 ∧ busy.Live ∧ State.reset.Live
      ∧ ([] : List Byte).length ≠ (1 : BitVec 24).toNat :=
  ⟨by decide, by decide, busy_live, reset_live, by decide⟩

theorem witness_EmptyUpdateWritesNothing : State.reset.Live ∧ spent.engine.phase = phaseFinalized := ⟨reset_live, rfl⟩

/-- FINALIZE with fill 0, 55 and 56: the two cases of padlen where they meet. -/
theorem witness_FinalizePadsAndAppendsLength :
    State.reset.Live ∧ ∀ len : BitVec 64, ({ busy with engine := { busy.engine with len := len } } : State).Live :=
  ⟨reset_live, fun _ => .inr rfl⟩

/-- Also of StateAfterFinalize: FINALIZE runs in a live state. -/
theorem witness_DigestIsTheAccumulators : busy.Live ∧ ∃ t, exec .finalize busy = .next t := ⟨busy_live, _, rfl⟩

theorem witness_StateAfterFinalize : State.reset.Live ∧ ∃ t, exec .finalize State.reset = .next t :=
  ⟨reset_live, _, rfl⟩

/-- Two spent states with other LEN and BUF, and a command that runs. -/
theorem witness_SpentLenAndBufAreNeverRead :
    let s' : State := { spent with engine := { spent.engine with len := 8, buf := Vector.replicate 64 0x61 } }
    spent.engine.phase = phaseFinalized ∧ s'.engine.phase = phaseFinalized ∧ spent.engine.acc = s'.engine.acc
      ∧ spent.output = s'.output ∧ ∃ t, exec (.encw 1) spent = .next t :=
  ⟨rfl, rfl, rfl, rfl, _, rfl⟩

theorem witness_FinalizeTransformCount : busy.Live := busy_live

theorem reset_safe : State.reset.Safe := reset_live.ne_undefined

/-- A well-formed command and a safe state, in each PHASE; a refused transaction. -/
theorem witness_PhaseMoves : (Instr.update 0 []).wellFormed = true ∧ (Instr.update 3 abc).wellFormed = true
    ∧ State.reset.Safe ∧ busy.Safe ∧ spent.Safe ∧ decode ⟨0x00000101, [], []⟩ = .error .badOperand
    ∧ ∃ t, spent.runTransaction ⟨0x00000101, [], []⟩ = .next t :=
  ⟨rfl, rfl, reset_safe, busy_live.ne_undefined, by unfold State.Safe; decide, test_arg_check.1, _, rfl⟩

theorem witness_FinalizedLastsUntilInitOrReset : busy.Live ∧ (∃ t, exec .finalize busy = .next t)
    ∧ spent.engine.phase = phaseFinalized ∧ decode ⟨0x00000003, [], []⟩ = .ok .finalize
    ∧ Instr.finalize.opcode = .finalize :=
  ⟨busy_live, ⟨_, rfl⟩, rfl, by decide +kernel, rfl⟩

/-- INIT from a state whose accumulators are not the IV. -/
theorem witness_WhoWritesTheAccumulators :
    let s : State := { busy with engine := { busy.engine with acc := ⟨0, 0, 0, 0⟩ } }
    ∃ t, exec .init s = .next t ∧ t.engine.acc ≠ s.engine.acc := ⟨_, rfl, by decide⟩

theorem witness_UndefinedPhaseIsStuck :
    stuck.engine.phase = phaseUndefined ∧ ([] : List Byte).length = (0 : BitVec 24).toNat := ⟨rfl, rfl⟩

/-- The ends of R66's ranges. -/
theorem witness_IllegalOpcodeIsRefused : ¬ LegalOpc 0x00 ∧ ¬ LegalOpc 0x04 ∧ ¬ LegalOpc 0x0F ∧ ¬ LegalOpc 0x13
    ∧ ¬ LegalOpc 0xFF := by unfold LegalOpc; decide +kernel

/-- R205's clauses: an illegal opcode, a bad operand in FINALIZED, a misuse, and none of them. -/
theorem witness_StatusOfEveryTransaction : spent.Safe ∧ State.reset.Safe ∧ ¬ LegalOpc (opcField 0x00000004)
    ∧ (LegalOpc (opcField 0x00000103) ∧ ¬ WellShaped ⟨0x00000103, [], []⟩)
    ∧ (LegalOpc (opcField 0x00000003) ∧ WellShaped ⟨0x00000003, [], []⟩ ∧ opcField 0x00000003 = 0x03
        ∧ spent.engine.phase = phaseFinalized ∧ State.reset.engine.phase ≠ phaseFinalized) :=
  ⟨by unfold State.Safe; decide, reset_safe, by unfold LegalOpc; decide +kernel, witness_BadOperandIsRefused.1,
    by unfold LegalOpc; decide +kernel, witness_DecodeIsTotal_format_z.2.1, by decide +kernel, rfl, by decide⟩

theorem witness_ErrorsWriteNoState : ∃ t, spent.runTransaction ⟨0x00000003, [], []⟩ = .next t
    ∧ t.output = spent.output ++ [⟨.misuse, [], []⟩] ∧ Status.misuse ≠ .ok := ⟨spent.raise .misuse, rfl, rfl, by decide⟩

theorem witness_StatelessCommandsIgnoreTheState :
    opcField 0x00000010 = 0x10 ∧ opcField 0x00000011 = 0x11 ∧ opcField 0x00000112 = 0x12 := by decide +kernel

/-- The three cases of a step on a command. -/
theorem witness_StepRunsTheDecodedCommand :
    (State.reset.withNextCommand ⟨0x00000003, [], []⟩).input = .command ⟨0x00000003, [], []⟩ :: []
      ∧ decode ⟨0x00000003, [], []⟩ = .ok .finalize ∧ decode ⟨0x00000004, [], []⟩ = .error .illegalOpcode
      ∧ decode ⟨0x00000101, [], []⟩ = .error .badOperand :=
  ⟨rfl, by decide +kernel, by decide +kernel, test_arg_check.1⟩

theorem witness_OneResponsePerCommand : State.reset.Safe
    ∧ ∃ t, State.reset.runTransaction ⟨0x00000010, [], [1, 2, 3, 4]⟩ = .next t := ⟨reset_safe, _, rfl⟩

theorem witness_CommandsCompleteInOrder :
    ∃ t, core.run 2 (State.reset.withNextCommand ⟨0x00000011, [1], []⟩) = .next t := ⟨_, rfl⟩

theorem witness_SendingACommandAgain : (∃ t, exec (.encw 1) busy = .next t) ∧ (Instr.encw 1).opcode = .encw
    ∧ (∃ t u, exec .init busy = .next t ∧ exec .init t = .next u) ∧ ∃ t, exec .finalize spent = .next t :=
  ⟨⟨_, rfl⟩, rfl, ⟨_, _, rfl, rfl⟩, spent.raise .misuse, rfl⟩

/-- The clause about UPDATE: "abc" sent again where the state stands for "abc". -/
theorem witness_SendingACommandAgain_update : abc.length = (3 : BitVec 24).toNat ∧ (3 : BitVec 24) ≠ 0
    ∧ afterAbc.Live ∧ afterAbc.engine.Holds abc :=
  ⟨rfl, by decide, .inr (by decide +kernel), by decide +kernel, by decide +kernel, by decide +kernel,
    by decide +kernel⟩

theorem witness_SafeStatesStepToSafeStates : State.reset.Safe ∧ spent.Safe :=
  ⟨reset_safe, by unfold State.Safe; decide⟩

theorem initial_holds_nothing : DigestState.initial.Holds [] := ⟨rfl, rfl, rfl, rfl⟩

/-- A state that stands for "abc", and one that is spent, each with an event to take. -/
theorem witness_EventsKeepTheMessageInvariant :
    afterAbc.engine.Tracks (some abc) ∧ spent.engine.Tracks none
      ∧ (spent.withNextCommand ⟨0x00000001, [], []⟩).input = .command ⟨0x00000001, [], []⟩ :: [] :=
  ⟨⟨by decide +kernel, by decide +kernel, by decide +kernel, by decide +kernel⟩, rfl, rfl⟩

theorem witness_BufferHoldsTheTailOfTheMessage : afterAbc.engine.Holds abc :=
  ⟨by decide +kernel, by decide +kernel, by decide +kernel, by decide +kernel⟩

/-- "abc" in the chunks of V-ENG-21. -/
theorem witness_HashIsMd5OfTheChunks :
    let chunks : List (List Byte) := [[0x61, 0x62], [], [0x63]]
    let s : State := { busy with input := commandEvents (.init :: chunks.map updateOf ++ [.finalize]) ++ [.reset] }
    (∀ c ∈ chunks, c.length ≤ Config.maxChunk)
      ∧ s.input = commandEvents (.init :: chunks.map updateOf ++ [.finalize]) ++ [.reset] := ⟨by decide, rfl⟩

theorem witness_UpdateLongActsAsOneAbsorb :
    let s : State := { State.reset with input := commandEvents ((longChunks abc).map updateOf) ++ [] }
    s.Live ∧ s.input = commandEvents ((longChunks abc).map updateOf) ++ [] := ⟨.inl rfl, rfl⟩

theorem witness_AssemblerSendsTheEncodings :
    (ByteExpr.ascii ['a', 'b', 'c']).eval = some abc ∧ abc.length ≤ Config.maxChunk
      ∧ (ByteExpr.bytes [1, 2, 3, 4]).eval = some (#v[1, 2, 3, 4] : Vector Byte 4).toList
      ∧ (ByteExpr.zeros 64).eval = some (Vector.replicate 64 0x00 : Block).toList := by decide +kernel

/-- Two UPDATEs of one length with other bytes, in states with other accumulators. -/
theorem witness_TransformTimeIgnoresTheData :
    ([0x78] : List Byte).length = (1 : BitVec 24).toNat ∧ busy.Live
      ∧ (encode (.update 1 [0x78])).cmd = (encode (.update 1 [0x79])).cmd
      ∧ (encode (.update 1 [0x78])).pb.length = (encode (.update 1 [0x79])).pb.length := ⟨rfl, busy_live, rfl, rfl⟩

theorem witness_InstancesShareNothing : ∃ q, Platform.reset.stepAt ⟨0, numInstances_pos⟩ = .next q := by
  have h : step (Platform.reset.cores[(⟨0, numInstances_pos⟩ : Fin Config.numInstances)]) = .next State.reset := by
    simp [Platform.reset, step, State.takeNext]
  exact ⟨_, by rw [Platform.stepAt, h]⟩

/-- R69: DECW of `78 56 34 12` off the front of a stream, and a transaction with ARG = 1 in format Z. -/
theorem witness_PayloadLengthsFollowFromCmd : (Instr.decw #v[0x78, 0x56, 0x34, 0x12]).wellFormed = true
    ∧ takeTransaction [.word 0x00000010, .byte 0x78, .byte 0x56, .byte 0x34, .byte 0x12, .word 0x00000003]
        = some (⟨0x00000010, [], [0x78, 0x56, 0x34, 0x12]⟩, [.word 0x00000003])
    ∧ takeTransaction [.word 0x00000101] = some (⟨0x00000101, [], []⟩, [])
    ∧ decode ⟨0x00000101, [], []⟩ = .error .badOperand := by decide +kernel

end Sys2Proof.Tests
end

/-! PROOFS. O51: what a sequence of commands does to the message an engine holds, and the whole digest. -/

/-! ### Commands as their transactions -/

namespace Sys2Proof

/-- The transaction of a well-formed command has the command's row of R63 and passes R64's checks. -/
theorem encode_shapeOk (i : Instr) (h : i.wellFormed = true) :
    opcField (encode i).cmd = i.opcode.toByte ∧ ShapeOk i.opcode (encode i) := by
  cases i with
  | init => exact Laws.EncodedShape.init h
  | update n pb => exact Laws.EncodedShape.update n pb h
  | finalize => exact Laws.EncodedShape.finalize h
  | decw pb => exact Laws.EncodedShape.decw pb h
  | encw w => exact Laws.EncodedShape.encw w h
  | compress st blk => exact Laws.EncodedShape.compress st blk h

/-- R65: the operands of a command's own transaction are the command's. -/
theorem operands_encode (i : Instr) (h : ShapeOk i.opcode (encode i)) : operands i.opcode (encode i) h = i := by
  cases i with
  | update n pb => exact congrArg (Instr.update · pb) (argField_cmdWord n Opcode.update.toByte)
  | init | finalize | decw _ | encw _ | compress _ _ => rfl

/-- R61, R63 to R65: the decoder undoes the encoder. -/
theorem decode_encode {i : Instr} (h : i.wellFormed = true) : decode (encode i) = .ok i := by
  obtain ⟨hop, hshape⟩ := encode_shapeOk i h
  rw [decode_of_shapeOk hop.symm hshape, operands_encode]

end Sys2Proof

namespace Sys2Proof.Machine

/-- ARG holds the byte count of a chunk of at most MAX_CHUNK bytes (D5). -/
theorem toNat_chunk_length {c : List Byte} (h : c.length ≤ Config.maxChunk) :
    (BitVec.ofNat 24 c.length).toNat = c.length := by
  unfold Config.maxChunk at h
  exact Nat.mod_eq_of_lt (by omega)

theorem updateOf_wellFormed {c : List Byte} (h : c.length ≤ Config.maxChunk) : (updateOf c).wellFormed = true := by
  simpa [updateOf, Instr.wellFormed] using (toNat_chunk_length h).symm

@[simp] theorem commandEvents_nil : commandEvents [] = [] := rfl

@[simp] theorem commandEvents_cons (i : Instr) (is : List Instr) :
    commandEvents (i :: is) = .command (encode i) :: commandEvents is := rfl

@[simp] theorem commandEvents_append (is js : List Instr) :
    commandEvents (is ++ js) = commandEvents is ++ commandEvents js := List.map_append

/-! ### Steps and runs of commands -/

/-- R44, R48: a well-formed command in front of the host's events is what the next step executes. -/
theorem step_command {s : State} {i : Instr} {rest : List HostEvent} (hi : i.wellFormed = true)
    (h : s.input = .command (encode i) :: rest) : step s = exec i { s with input := rest } := by
  rw [step_event h, takeEvent_command, runTransaction_ok (decode_encode hi)]

/-- A run goes on from where its first `k` steps end. -/
theorem run_add_next {k : Nat} {s t : State} (l : Nat) (h : core.run k s = .next t) :
    core.run (k + l) s = core.run l t := by
  induction k generalizing s with
  | zero =>
    have hst : s = t := Host.Outcome.next.inj h
    rw [Nat.zero_add, hst]
  | succ k ih =>
    cases hs : step s with
    | next s' =>
      rw [run_succ_next hs] at h
      rw [Nat.add_right_comm, run_succ_next hs, ih h]
    | fault r =>
      simp [Host.Core.run, show core.step s = .fault r from hs] at h
    | refused r =>
      simp [Host.Core.run, show core.step s = .refused r from hs] at h

/-- A run of one step. -/
theorem run_one {s t : State} (h : step s = .next t) : core.run 1 s = .next t := run_succ_next h

/-! ### What an engine has absorbed (spec/10_state.md R27) -/

/-- R27 without PHASE: LEN, the pending bytes and the accumulators are those of the message `m`. Absorb does not touch
PHASE (R140), so this covers the padding and the length field of FINALIZE as well as the payloads of UPDATE. -/
structure DigestState.HasAbsorbed (e : DigestState) (m : List Byte) : Prop where
  len : e.len = BitVec.ofNat 64 (8 * m.length)
  pending : e.pending = m.drop (64 * (m.length / 64))
  acc : e.acc = foldBlocks (blocksOf m)

/-- R27.1: fill is the message's length modulo 64, also where LEN has wrapped. -/
theorem fill_of_bitLength (n : Nat) : fill (BitVec.ofNat 64 (8 * n)) = n % 64 := by
  rw [fill_eq, BitVec.toNat_ofNat]
  omega

/-- The spec's invariant is that PHASE and the rest of R27 both fit the message. -/
theorem holds_iff (e : DigestState) (m : List Byte) :
    e.Holds m ↔ e.HasAbsorbed m ∧ e.phase = if m = [] then phaseCreated else phaseUpdating := by
  have hstart : m.length - m.length % 64 = 64 * (m.length / 64) := by omega
  constructor
  · rintro ⟨hlen, hbuf, hacc, hphase⟩
    refine ⟨⟨hlen, ?_, hacc⟩, hphase⟩
    rw [DigestState.pending, hbuf, hlen, fill_of_bitLength, hstart]
  · rintro ⟨⟨hlen, hpending, hacc⟩, hphase⟩
    refine ⟨hlen, ?_, hacc, hphase⟩
    rw [← DigestState.pending, hpending, hlen, fill_of_bitLength, hstart]

theorem hasAbsorbed_withPhase {e : DigestState} {m : List Byte} (p : PhaseReg) (h : e.HasAbsorbed m) :
    DigestState.HasAbsorbed { e with phase := p } m := ⟨h.len, h.pending, h.acc⟩

theorem advanceLen_bitLength (n k : Nat) :
    advanceLen (BitVec.ofNat 64 (8 * n)) k = BitVec.ofNat 64 (8 * (n + k)) := by
  rw [advanceLen, Nat.mul_add, BitVec.ofNat_add]

theorem foldBlocks_append (bs cs : List Block) : foldBlocks (bs ++ cs) = cs.foldl compressBlock (foldBlocks bs) :=
  List.foldl_append

/-- Absorb extends the absorbed message by its input. -/
theorem DigestState.HasAbsorbed.absorb {e : DigestState} {m : List Byte} (h : e.HasAbsorbed m) (x : List Byte) :
    (absorb e x).HasAbsorbed (m ++ x) := by
  have hle : 64 * (m.length / 64) ≤ m.length := Nat.mul_div_le _ _
  refine ⟨?_, ?_, ?_⟩
  · rw [absorb_len, h.len, advanceLen_bitLength, List.length_append]
  · rw [absorb_pending, h.pending, ← List.drop_append_of_le_length hle, List.drop_drop]
    congr 1
    simp only [List.length_drop, List.length_append]
    omega
  · rw [absorb_acc, absorbedBlocks_eq, h.acc, h.pending, blocksOf_append m x, foldBlocks_append]

/-- R150 to R153: the two Absorbs of FINALIZE complete the message to its padded form. -/
theorem DigestState.HasAbsorbed.padAndLength {e : DigestState} {m : List Byte} (h : e.HasAbsorbed m) :
    (padAndLength e).HasAbsorbed (paddedMessage m) := by
  rw [Machine.padAndLength, paddedMessage, h.len, fill_of_bitLength]
  exact (h.absorb _).absorb _

/-! ### The engine's commands on a held message -/

theorem live_of_holds {s : State} {m : List Byte} (h : s.engine.Holds m) : s.Live := by
  rw [State.Live, h.phase]
  split <;> simp

/-- R146: INIT answers OK and starts an empty message. -/
theorem exec_init_holds (s : State) :
    ∃ t : State, exec .init s = .next t ∧ t.engine.Holds [] ∧ t.input = s.input
      ∧ t.output = s.output ++ [okResponse] := by
  have hempty : DigestState.initial.Holds [] := ⟨rfl, rfl, rfl, rfl⟩
  exact ⟨_, rfl, hempty, rfl, rfl⟩

/-- A well-formed UPDATE in CREATED or UPDATING: an empty payload writes nothing (R148), another is absorbed (R147). -/
theorem exec_update_live {s : State} {n : BitVec 24} {pb : List Byte} (h : s.Live) (hn : pb.length = n.toNat) :
    exec (.update n pb) s =
      .next (State.respond
        (if pb = [] then s else { s with engine := { absorb s.engine pb with phase := phaseUpdating } })
        .ok [] []) := by
  have hzero : n = 0 ↔ pb = [] := by
    rw [← BitVec.toNat_inj, ← hn]
    exact List.length_eq_zero_iff
  simp only [exec, execUpdate, hn, if_true, hzero]
  rw [unlessFinalized_body h.ne_finalized h.ne_undefined]
  split <;> rfl

/-- R147, R148: a well-formed UPDATE answers OK and extends the message by its payload, which may be empty. -/
theorem exec_update_holds {s : State} {m pb : List Byte} {n : BitVec 24} (h : s.engine.Holds m)
    (hn : pb.length = n.toNat) :
    ∃ t : State, exec (.update n pb) s = .next t ∧ t.engine.Holds (m ++ pb) ∧ t.input = s.input
      ∧ t.output = s.output ++ [okResponse] := by
  refine ⟨_, exec_update_live (live_of_holds h) hn, ?_⟩
  by_cases hnil : pb = []
  · subst hnil
    exact ⟨by simpa using h, rfl, rfl⟩
  · rw [if_neg hnil]
    obtain ⟨habs, -⟩ := (holds_iff _ _).mp h
    exact ⟨(holds_iff _ _).mpr ⟨hasAbsorbed_withPhase _ (habs.absorb pb), by simp [hnil]⟩, rfl, rfl⟩

/-- R150 to R154: FINALIZE answers OK with the MD5 of the message. -/
theorem exec_finalize_holds {s : State} {m : List Byte} (h : s.engine.Holds m) :
    ∃ t : State, exec .finalize s = .next t ∧ t.input = s.input ∧ t.output = s.output ++ [⟨.ok, [], md5 m⟩] := by
  have hlive := live_of_holds h
  obtain ⟨habs, -⟩ := (holds_iff _ _).mp h
  refine ⟨_, unlessFinalized_body hlive.ne_finalized hlive.ne_undefined _, rfl, ?_⟩
  rw [State.respond_output, habs.padAndLength.acc, md5]

/-! ### The whole digest -/

/-- One UPDATE per chunk, each answered OK, extends the message by the chunks in order. -/
theorem run_updates_holds (chunks : List (List Byte)) (rest : List HostEvent) {s : State} {m : List Byte}
    (h : s.engine.Holds m) (hmax : ∀ c ∈ chunks, c.length ≤ Config.maxChunk)
    (hin : s.input = commandEvents (chunks.map updateOf) ++ rest) :
    ∃ t : State, core.run chunks.length s = .next t ∧ t.engine.Holds (m ++ chunks.flatten) ∧ t.input = rest
      ∧ t.output = s.output ++ List.replicate chunks.length okResponse := by
  induction chunks generalizing s m with
  | nil => exact ⟨s, rfl, by simpa using h, by simpa using hin, by simp⟩
  | cons c cs ih =>
    obtain ⟨hc, hcs⟩ := List.forall_mem_cons.mp hmax
    obtain ⟨s', hexec, hs', hin', hout'⟩ := exec_update_holds h (toNat_chunk_length hc).symm
      (s := { s with input := commandEvents (cs.map updateOf) ++ rest })
    have hstep := (step_command (updateOf_wellFormed hc) hin).trans hexec
    obtain ⟨t, hrun, ht, htin, htout⟩ := ih hs' hcs hin'
    refine ⟨t, (run_succ_next hstep).trans hrun, by simpa using ht, htin, ?_⟩
    simp [htout, hout', List.replicate_succ]

/-- Settles O51: INIT starts the empty message, each UPDATE extends the message the engine holds, and FINALIZE answers
the MD5 of the message held. -/
theorem hashIsMd5OfTheChunks : Obligations.HashIsMd5OfTheChunks := by
  intro s chunks rest hmax hin
  have hin' : s.input
      = .command (encode .init) :: (commandEvents (chunks.map updateOf) ++ .command (encode .finalize) :: rest) := by
    simpa using hin
  obtain ⟨s₁, hinit, hs₁, hin₁, hout₁⟩ := exec_init_holds
    { s with input := commandEvents (chunks.map updateOf) ++ .command (encode .finalize) :: rest }
  obtain ⟨s₂, hrun, hs₂, hin₂, hout₂⟩ := run_updates_holds chunks _ hs₁ hmax hin₁
  obtain ⟨t, hfin, htin, htout⟩ := exec_finalize_holds (s := { s₂ with input := rest }) hs₂
  refine ⟨t, ?_, htin, ?_⟩
  · calc core.run (chunks.length + 2) s
        = core.run (chunks.length + 1) s₁ := run_succ_next ((step_command rfl hin').trans hinit)
      _ = core.run 1 s₂ := run_add_next 1 hrun
      _ = .next t := run_one ((step_command rfl hin₂).trans hfin)
  · simp [htout, hout₂, hout₁, List.replicate_succ]

end Sys2Proof.Machine

/-! PROOFS. The state of one MD5C core: what the invariant of R27 says of the state, how every event keeps it, which
values the state starts with, and who writes it. -/

/-! ### The decoder's answers are well-formed -/

namespace Sys2Proof

/-- R64, R65: operands taken from a transaction of the right shape form a well-formed command. -/
theorem operands_wellFormed (op : Opcode) (t : Transaction) (h : ShapeOk op t) :
    (operands op t h).wellFormed = true := by
  obtain ⟨-, -, hpb⟩ := h
  cases op with
  | update => exact beq_iff_eq.mpr hpb
  | init | finalize | decw | encw | compress => rfl

/-- R67: the decoder answers well-formed commands only. -/
theorem decode_wellFormed {t : Transaction} {i : Instr} (h : decode t = .ok i) : i.wellFormed = true := by
  rcases decode_cases t with ⟨-, herr⟩ | ⟨op, -, -, herr⟩ | ⟨op, hshape, -, hok⟩
  · rw [herr] at h
    cases h
  · rw [herr] at h
    cases h
  · rw [hok] at h
    cases h
    exact operands_wellFormed op t hshape

end Sys2Proof

namespace Sys2Proof.Machine

/-! ### UPDATE and FINALIZE, by PHASE (spec/42_engine.md R147, R150; spec/60_exceptions.md R202, R203) -/

/-- R202: a payload of the wrong length is refused in every PHASE. -/
theorem exec_update_badOperand {n : BitVec 24} {pb : List Byte} (s : State) (hn : pb.length ≠ n.toNat) :
    exec (.update n pb) s = .next (s.raise .badOperand) := if_neg hn

theorem exec_update_finalized {s : State} {n : BitVec 24} {pb : List Byte} (h : s.engine.phase = phaseFinalized)
    (hn : pb.length = n.toNat) : exec (.update n pb) s = .next (s.raise .misuse) :=
  (if_pos hn).trans (unlessFinalized_misuse h _)

theorem exec_update_undefined {s : State} {n : BitVec 24} {pb : List Byte} (h : s.engine.phase = phaseUndefined)
    (hn : pb.length = n.toNat) : exec (.update n pb) s = .fault .phaseUndefined :=
  (if_pos hn).trans (unlessFinalized_stuck h _)

theorem exec_finalize_live {s : State} (h : s.Live) :
    exec .finalize s =
      .next (State.respond { s with engine := { padAndLength s.engine with phase := phaseFinalized } } .ok []
        (digestBytes (padAndLength s.engine).acc)) :=
  unlessFinalized_body h.ne_finalized h.ne_undefined _

theorem exec_finalize_finalized {s : State} (h : s.engine.phase = phaseFinalized) :
    exec .finalize s = .next (s.raise .misuse) := unlessFinalized_misuse h _

theorem exec_finalize_undefined {s : State} (h : s.engine.phase = phaseUndefined) :
    exec .finalize s = .fault .phaseUndefined := unlessFinalized_stuck h _

/-! ### Every event keeps the invariant of R27 -/

/-- The initial state stands for the empty message: LEN is 0, nothing is pending, no block has been folded. -/
theorem initial_holds_nil : DigestState.initial.Holds [] := ⟨rfl, rfl, rfl, rfl⟩

/-- A well-formed UPDATE extends the message the state stands for, and a spent state stays spent. -/
theorem exec_update_tracks {s : State} {msg : Option (List Byte)} {n : BitVec 24} {pb : List Byte}
    (h : s.engine.Tracks msg) (hn : pb.length = n.toNat) :
    ∃ t : State, exec (.update n pb) s = .next t ∧ t.input = s.input ∧ t.engine.Tracks (msg.map (· ++ pb)) := by
  cases msg with
  | none => exact ⟨_, exec_update_finalized h hn, rfl, h⟩
  | some m =>
    obtain ⟨t, hexec, hholds, hin, -⟩ := exec_update_holds h hn
    exact ⟨t, hexec, hin, hholds⟩

/-- FINALIZE leaves a spent state, whether it answers the digest or MISUSE. -/
theorem exec_finalize_tracks {s : State} {msg : Option (List Byte)} (h : s.engine.Tracks msg) :
    ∃ t : State, exec .finalize s = .next t ∧ t.input = s.input ∧ t.engine.Tracks none := by
  cases msg with
  | none => exact ⟨_, exec_finalize_finalized h, rfl, h⟩
  | some m => exact ⟨_, exec_finalize_live (live_of_holds h), rfl, rfl⟩

/-- Every well-formed command keeps the invariant and leaves the host's later events alone. -/
theorem exec_tracks {i : Instr} {s : State} {msg : Option (List Byte)} (hi : i.wellFormed = true)
    (h : s.engine.Tracks msg) :
    ∃ t : State, exec i s = .next t ∧ t.input = s.input ∧ t.engine.Tracks (messageAfterCommand msg i) := by
  cases i with
  | init => exact ⟨_, rfl, rfl, initial_holds_nil⟩
  | update n pb => exact exec_update_tracks h (beq_iff_eq.mp hi)
  | finalize => exact exec_finalize_tracks h
  | decw _ | encw _ | compress _ _ => exact ⟨_, rfl, rfl, h⟩

/-- Every event keeps the invariant: a refused transaction writes no state (R204), and a reset starts afresh (R220). -/
theorem takeEvent_tracks {s : State} {msg : Option (List Byte)} (ev : HostEvent) (h : s.engine.Tracks msg) :
    ∃ t : State, s.takeEvent ev = .next t ∧ t.input = s.input ∧ t.engine.Tracks (messageAfter msg ev) := by
  cases ev with
  | command tx =>
    cases hdec : decode tx with
    | ok i =>
      rw [takeEvent_command, runTransaction_ok hdec, messageAfter, hdec]
      exact exec_tracks (decode_wellFormed hdec) h
    | error r =>
      rw [takeEvent_command, runTransaction_error hdec, messageAfter, hdec]
      exact ⟨_, rfl, rfl, h⟩
  | reset | resetDuring _ => exact ⟨_, rfl, rfl, initial_holds_nil⟩

/-- Settles O49: a step is the host's next event on the state without it, and every event keeps the invariant. -/
theorem eventsKeepTheMessageInvariant : Obligations.EventsKeepTheMessageInvariant := by
  intro s msg ev rest h hin
  rw [step_event hin]
  exact takeEvent_tracks (s := { s with input := rest }) ev h

/-! ### What the invariant says of BUF -/

/-- The complete blocks of a message, put together, are its head. -/
theorem blocksOf_flatten (m : List Byte) :
    ((blocksOf m).map Vector.toList).flatten = m.take (64 * (m.length / 64)) := by
  obtain ⟨-, hflatten, -⟩ := fullBlocks_spec m.length m (Nat.le_refl _)
  exact hflatten

/-- Settles O50: LEN gives fill, and the message is its complete blocks and then the pending bytes. -/
theorem bufferHoldsTheTailOfTheMessage : Obligations.BufferHoldsTheTailOfTheMessage := by
  intro e m h
  obtain ⟨⟨hlen, hpending, -⟩, -⟩ := (holds_iff e m).mp h
  refine ⟨by rw [hlen, fill_of_bitLength], Nat.le_of_lt_succ (fill_lt e.len), ?_⟩
  rw [← DigestState.pending, hpending, blocksOf_flatten, List.take_append_drop]

/-! ### The registers determine the state (spec/10_state.md R20, R23) -/

theorem toNat_lenLo (len : BitVec 64) : (lenLo len).toNat = len.toNat % 2 ^ 32 := by
  simp [lenLo, BitVec.extractLsb'_toNat]

theorem toNat_lenHi (len : BitVec 64) : (lenHi len).toNat = len.toNat / 2 ^ 32 := by
  rw [lenHi, BitVec.extractLsb'_toNat, Nat.shiftRight_eq_div_pow]
  omega

/-- R23: LEN is determined by its two halves. -/
theorem len_eq_of_halves {len len' : BitVec 64} (hlo : lenLo len = lenLo len') (hhi : lenHi len = lenHi len') :
    len = len' := by
  have hmod : len.toNat % 2 ^ 32 = len'.toNat % 2 ^ 32 := by rw [← toNat_lenLo, hlo, toNat_lenLo]
  have hdiv : len.toNat / 2 ^ 32 = len'.toNat / 2 ^ 32 := by rw [← toNat_lenHi, hhi, toNat_lenHi]
  exact BitVec.eq_of_toNat_eq (by omega)

/-- PHASE is kept whole in the word of register 6. -/
theorem setWidth_phase_injective {p q : PhaseReg} (h : p.setWidth 32 = q.setWidth 32) : p = q := by
  have hwiden (r : PhaseReg) : (r.setWidth 32).setWidth 2 = r := BitVec.setWidth_setWidth_of_le r (by decide)
  rw [← hwiden p, h, hwiden]

/-- Settles O17: the accumulators are registers 0 to 3, LEN is the two halves in 4 and 5, PHASE is in 6. -/
theorem numberedRegistersAndBufAreTheState : Obligations.NumberedRegistersAndBufAreTheState := by
  rintro ⟨⟨a, b, c, d⟩, len, buf, phase⟩ ⟨⟨a', b', c', d'⟩, len', buf', phase'⟩ hreg hbuf
  have hacc : (⟨a, b, c, d⟩ : Accumulators) = ⟨a', b', c', d'⟩ := by
    rw [Accumulators.mk.injEq]
    exact ⟨hreg 0, hreg 1, hreg 2, hreg 3⟩
  have hlen : len = len' := len_eq_of_halves (hreg 4) (hreg 5)
  have hphase : phase = phase' := setWidth_phase_injective (hreg 6)
  rw [hacc, hlen, hphase, show buf = buf' from hbuf]

/-- Settles O18: fill is the byte count of LEN modulo 64, and space is what is left of the block. -/
theorem fillAndSpace : Obligations.FillAndSpace := by
  intro len
  have hfill := fill_lt len
  have hsum := fill_add_space len
  exact ⟨rfl, fill_eq len, by omega, rfl, space_pos len, by omega⟩

/-! ### The state after reset and INIT (spec/10_state.md R22, R31) -/

/-- R22: the bytes of the initial values, lowest first. -/
theorem encodeWord_initialAccumulators :
    encodeWord initialAccumulators.a = #v[0x01, 0x23, 0x45, 0x67]
      ∧ encodeWord initialAccumulators.b = #v[0x89, 0xAB, 0xCD, 0xEF]
      ∧ encodeWord initialAccumulators.c = #v[0xFE, 0xDC, 0xBA, 0x98]
      ∧ encodeWord initialAccumulators.d = #v[0x76, 0x54, 0x32, 0x10] := by
  decide

/-- Settles O14: the four words and their bytes are computed; INIT and the two resets leave the initial engine state. -/
theorem initialValuesAndTheirBytes : Obligations.InitialValuesAndTheirBytes := by
  obtain ⟨ha, hb, hc, hd⟩ := encodeWord_initialAccumulators
  exact ⟨rfl, ha, hb, hc, hd, fun s => ⟨_, rfl, rfl⟩, rfl, fun s => ⟨_, takeEvent_reset s, rfl⟩⟩

/-- R31: the initial engine state has the values the spec lists. -/
theorem initial_hasResetValues : DigestState.initial.HasResetValues where
  a := rfl
  b := rfl
  c := rfl
  d := rfl
  lenLo := rfl
  lenHi := rfl
  buf := fun _ h => Vector.getElem_replicate h
  phase := rfl

/-- Settles O15: power-on, a reset event and INIT all leave the initial engine state. -/
theorem stateAfterResetAndInit : Obligations.StateAfterResetAndInit :=
  ⟨initial_hasResetValues, fun s => ⟨_, takeEvent_reset s, initial_hasResetValues⟩,
    fun _ => ⟨_, rfl, initial_hasResetValues⟩⟩

/-- Settles O48: reset leaves the initial engine state, which stands for the empty message. -/
theorem resetHoldsTheEmptyMessage : Obligations.ResetHoldsTheEmptyMessage := initial_holds_nil

/-! ### Who writes the accumulators (spec/10_state.md R21) -/

/-- R142: an Absorb that does not fill the block compresses nothing. -/
theorem absorbedBlocks_eq_nil {e : DigestState} {m : List Byte} (h : fill e.len + m.length < 64) :
    absorbedBlocks e m = [] := by
  have hshort : (e.pending ++ m).length < 64 := by rwa [List.length_append, pending_length]
  rw [absorbedBlocks_eq, blocksOf, fullBlocks_short _ _ hshort]

/-- An UPDATE with too few bytes to complete a block keeps A to D. -/
theorem exec_update_acc {n : BitVec 24} {pb : List Byte} {s t : State} (h : exec (.update n pb) s = .next t)
    (hshort : fill s.engine.len + pb.length < 64) : t.engine.acc = s.engine.acc := by
  rcases execUpdate_next h with ⟨-, rfl⟩ | ⟨-, -, rfl⟩ | ⟨-, -, -, rfl⟩ | ⟨-, -, -, rfl⟩
  · rfl
  · rfl
  · rfl
  · simp [absorb_acc, absorbedBlocks_eq_nil hshort]

/-- Settles O35: the stateless commands only respond, and an UPDATE writes A to D only where its Absorb completes a
block. -/
theorem whoWritesTheAccumulators : Obligations.WhoWritesTheAccumulators := by
  intro i s t h hne
  cases i with
  | init => exact .inl rfl
  | finalize => exact .inr (.inl rfl)
  | update n pb =>
    have hfull : 64 ≤ fill s.engine.len + pb.length :=
      Nat.le_of_not_lt fun hshort => hne (exec_update_acc h hshort)
    exact .inr (.inr ⟨n, pb, rfl, hfull⟩)
  | decw _ | encw _ | compress _ _ =>
    cases h
    exact absurd rfl hne

/-! ### PHASE never takes the value no rule writes (spec/10_state.md R26) -/

/-- Settles O36: UPDATE and FINALIZE read PHASE and stop, INIT does not read it. -/
theorem undefinedPhaseIsStuck : Obligations.UndefinedPhaseIsStuck := fun _ _ _ h =>
  ⟨exec_finalize_undefined h, exec_update_undefined h, _, rfl, rfl⟩

/-- A safe state is live or spent. -/
theorem State.Safe.live_or_finalized {s : State} (h : s.Safe) : s.Live ∨ s.engine.phase = phaseFinalized := by
  by_cases hf : s.engine.phase = phaseFinalized
  · exact .inr hf
  · exact .inl (live_of_ne hf h)

/-- A live state is safe. -/
theorem State.Live.safe {s : State} (h : s.Live) : s.Safe := h.ne_undefined

/-- A spent state is safe. -/
theorem safe_of_finalized {s : State} (h : s.engine.phase = phaseFinalized) : s.Safe := by
  rw [State.Safe, h]
  decide

/-- Settles O46: after reset PHASE is CREATED. -/
theorem resetIsSafe : Obligations.ResetIsSafe := State.Live.safe (.inl rfl)

/-- UPDATE answers a safe state from every safe state: PHASE is kept or becomes UPDATING. -/
theorem exec_update_safe (n : BitVec 24) (pb : List Byte) {s : State} (h : s.Safe) :
    ∃ t : State, exec (.update n pb) s = .next t ∧ t.Safe := by
  by_cases hn : pb.length = n.toNat
  · rcases h.live_or_finalized with hlive | hf
    · refine ⟨_, exec_update_live hlive hn, ?_⟩
      split
      · exact h
      · exact State.Live.safe (.inr rfl)
    · exact ⟨_, exec_update_finalized hf hn, h⟩
  · exact ⟨_, exec_update_badOperand s hn, h⟩

/-- FINALIZE answers a safe state from every safe state: PHASE is FINALIZED after it. -/
theorem exec_finalize_safe {s : State} (h : s.Safe) : ∃ t : State, exec .finalize s = .next t ∧ t.Safe := by
  rcases h.live_or_finalized with hlive | hf
  · exact ⟨_, exec_finalize_live hlive, safe_of_finalized rfl⟩
  · exact ⟨_, exec_finalize_finalized hf, h⟩

/-- Every command answers a safe state from every safe state. -/
theorem exec_safe (i : Instr) {s : State} (h : s.Safe) : ∃ t : State, exec i s = .next t ∧ t.Safe := by
  cases i with
  | init => exact ⟨_, rfl, State.Live.safe (.inl rfl)⟩
  | update n pb => exact exec_update_safe n pb h
  | finalize => exact exec_finalize_safe h
  | decw _ | encw _ | compress _ _ => exact ⟨_, rfl, h⟩

/-- R204: every transaction, refused or run, is answered from every safe state, with a safe state. -/
theorem runTransaction_safe (tx : Transaction) {s : State} (h : s.Safe) :
    ∃ t : State, s.runTransaction tx = .next t ∧ t.Safe := by
  cases hdec : decode tx with
  | ok i =>
    rw [runTransaction_ok hdec]
    exact exec_safe i h
  | error r => exact ⟨_, runTransaction_error hdec, h⟩

theorem takeEvent_safe (ev : HostEvent) {s : State} (h : s.Safe) :
    ∃ t : State, s.takeEvent ev = .next t ∧ t.Safe := by
  cases ev with
  | command tx => exact runTransaction_safe tx h
  | reset | resetDuring _ => exact ⟨_, rfl, State.Live.safe (.inl rfl)⟩

/-- Settles O47: a step waits, or takes the host's next event, and every event answers a safe state. -/
theorem safeStatesStepToSafeStates : Obligations.SafeStatesStepToSafeStates := by
  intro s h
  cases hin : s.input with
  | nil => exact ⟨s, step_idle hin, h⟩
  | cons ev rest =>
    rw [step_event hin]
    exact takeEvent_safe ev (s := { s with input := rest }) h

/-! ### Instances (spec/10_state.md R33) -/

/-- Where core k of a platform steps, it takes its own step, and the platform holds the result in its place. -/
theorem stepAt_next {p q : Platform} {k : Fin Config.numInstances} (h : p.stepAt k = .next q) :
    ∃ s : State, step p.cores[k] = .next s ∧ q = ⟨p.cores.set k s⟩ := by
  unfold Platform.stepAt at h
  cases hs : step p.cores[k] with
  | next s =>
    rw [hs] at h
    cases h
    exact ⟨s, rfl, rfl⟩
  | fault r =>
    rw [hs] at h
    cases h
  | refused r =>
    rw [hs] at h
    cases h

/-- Settles O55: a step of core k writes place k of the platform and no other. -/
theorem instancesShareNothing : Obligations.InstancesShareNothing := by
  intro p q k h
  obtain ⟨s, hs, rfl⟩ := stepAt_next h
  refine ⟨?_, fun j hj => ?_⟩
  · rw [hs]
    exact congrArg _ (Vector.getElem_set_self k.isLt).symm
  · exact Vector.getElem_set_ne k.isLt j.isLt fun hkj => hj (Fin.ext hkj.symm)

end Sys2Proof.Machine

/-! PROOFS. O44 and O42: what one step takes off the host's stream, what it answers, and the same over any number of
steps. -/

namespace Sys2Proof.Machine

/-! ### One step on a command -/

/-- Settles O42: the step takes the transaction off the stream; the decoder's answer says which of the two cases of
`runTransaction` it runs. -/
theorem stepRunsTheDecodedCommand : Obligations.StepRunsTheDecodedCommand := by
  intro s tx rest hin
  rw [step_event hin, takeEvent_command]
  exact ⟨fun i hok => runTransaction_ok hok, runTransaction_error, runTransaction_error⟩

/-! ### The commands among the host's events -/

theorem commandCount_append (xs ys : List HostEvent) :
    commandCount (xs ++ ys) = commandCount xs + commandCount ys := by
  simp [commandCount]

/-! ### What a command, an event and a step answer -/

/-- R62: a command that completes leaves the host's events alone and adds one response. -/
theorem exec_next {i : Instr} {s t : State} (h : exec i s = .next t) :
    t.input = s.input ∧ ∃ r : Response, t.output = s.output ++ [r] := by
  cases i with
  | update n pb =>
    rcases execUpdate_next h with ⟨-, rfl⟩ | ⟨-, -, rfl⟩ | ⟨-, -, -, rfl⟩ | ⟨-, -, -, rfl⟩ <;> exact ⟨rfl, _, rfl⟩
  | finalize => rcases execFinalize_next h with ⟨-, rfl⟩ | ⟨-, rfl⟩ <;> exact ⟨rfl, _, rfl⟩
  | init | decw _ | encw _ | compress _ _ =>
    cases h
    exact ⟨rfl, _, rfl⟩

/-- R62, R204: a transaction, run or refused, leaves the host's events alone and adds one response. -/
theorem runTransaction_next {tx : Transaction} {s t : State} (h : s.runTransaction tx = .next t) :
    t.input = s.input ∧ ∃ r : Response, t.output = s.output ++ [r] := by
  cases hdec : decode tx with
  | ok i => exact exec_next (runTransaction_ok hdec ▸ h)
  | error r =>
    rw [runTransaction_error hdec] at h
    cases h
    exact ⟨rfl, _, rfl⟩

/-- R62, R222: a command adds one response, a reset adds none; neither touches the host's later events. -/
theorem takeEvent_next {ev : HostEvent} {s t : State} (h : s.takeEvent ev = .next t) :
    t.input = s.input ∧ ∃ new : List Response, t.output = s.output ++ new ∧ new.length = commandCount [ev] := by
  cases ev with
  | command tx =>
    obtain ⟨hin, r, hout⟩ := runTransaction_next h
    exact ⟨hin, [r], hout, rfl⟩
  | reset | resetDuring _ =>
    cases h
    exact ⟨rfl, [], (List.append_nil _).symm, rfl⟩

/-- R48, R62: a step takes at most the first event, and answers it if it is a command. -/
theorem step_next {s t : State} (h : step s = .next t) :
    t.input = s.input.drop 1
      ∧ ∃ new : List Response, t.output = s.output ++ new ∧ new.length = commandCount (s.input.take 1) := by
  cases hin : s.input with
  | nil =>
    rw [step_idle hin] at h
    cases h
    exact ⟨hin, [], (List.append_nil _).symm, rfl⟩
  | cons ev rest =>
    rw [step_event hin] at h
    exact takeEvent_next h

/-! ### Any number of steps -/

/-- A run of `k + 1` steps that ends in a next state is one such step and a run of `k` steps after it. -/
theorem exists_of_run_succ_next {k : Nat} {s t : State} (h : core.run (k + 1) s = .next t) :
    ∃ u : State, step s = .next u ∧ core.run k u = .next t := by
  cases hs : step s with
  | next u => exact ⟨u, rfl, run_succ_next hs ▸ h⟩
  | fault r => simp [Host.Core.run, show core.step s = .fault r from hs] at h
  | refused r => simp [Host.Core.run, show core.step s = .refused r from hs] at h

/-- Settles O44, by induction on the number of steps: the first step takes and answers the first event, the others the
events after it. -/
theorem commandsCompleteInOrder : Obligations.CommandsCompleteInOrder := by
  intro k
  induction k with
  | zero =>
    intro s t h
    cases h
    exact ⟨rfl, [], (List.append_nil _).symm, rfl⟩
  | succ k ih =>
    intro s t h
    obtain ⟨u, hstep, hrun⟩ := exists_of_run_succ_next h
    obtain ⟨hinu, first, houtu, hfirst⟩ := step_next hstep
    obtain ⟨hint, later, houtt, hlater⟩ := ih u t hrun
    rw [hinu] at hint hlater
    refine ⟨?_, first ++ later, ?_, ?_⟩
    · rw [hint, List.drop_drop, Nat.add_comm]
    · rw [houtt, houtu, List.append_assoc]
    · rw [List.length_append, hfirst, hlater, ← commandCount_append, ← List.take_add, Nat.add_comm]

end Sys2Proof.Machine

/-! PROOFS. The encoding (spec/30_encoding.md): decoder and encoder are inverse to each other, the decoder is total, the
responses have their row's size, and what the assembler and a transport send is the encoding. -/

/-! ### Operands and the transaction they came from (R63 to R65) -/

namespace Sys2Proof

/-- R63: the rows of the opcode map differ in their OPC. -/
theorem Opcode.toByte_injective {op op' : Opcode} (h : op.toByte = op'.toByte) : op = op' := by
  have hrow : some op = some op' := by rw [← Opcode.ofByte_toByte op, h, Opcode.ofByte_toByte]
  exact Option.some.inj hrow

/-- DECW's operand is the byte payload. -/
theorem operands_decw (t : Transaction) (h : ShapeOk .decw t) :
    ∃ pb : Vector Byte 4, operands .decw t h = .decw pb ∧ pb.toList = t.pb := ⟨_, rfl, rfl⟩

/-- ENCW's operand is the one word of the word payload. -/
theorem operands_encw (t : Transaction) (h : ShapeOk .encw t) :
    ∃ w : Word, operands .encw t h = .encw w ∧ [w] = t.pw := by
  obtain ⟨cmd, pw, pb⟩ := t
  obtain ⟨w, rfl⟩ := List.length_eq_one_iff.mp (show pw.length = 1 from h.2.1)
  exact ⟨w, rfl, rfl⟩

/-- COMPRESS's operands are the four words and the byte payload. -/
theorem operands_compress (t : Transaction) (h : ShapeOk .compress t) :
    ∃ (st : Accumulators) (blk : Block), operands .compress t h = .compress st blk
      ∧ [st.a, st.b, st.c, st.d] = t.pw ∧ blk.toList = t.pb := by
  obtain ⟨cmd, pw, pb⟩ := t
  obtain ⟨a, b, c, d, rfl⟩ := List.length_eq_four.mp (show pw.length = 4 from h.2.1)
  exact ⟨⟨a, b, c, d⟩, _, rfl, rfl, rfl⟩

/-- R61, R65: a transaction of the right shape is the encoding of its operands. -/
theorem encode_operands {op : Opcode} {t : Transaction} (hop : op.toByte = opcField t.cmd) (h : ShapeOk op t) :
    encode (operands op t h) = t := by
  have ⟨harg, hpw, hpb⟩ := h
  have hcmd : cmdWord (argField t.cmd) op.toByte = t.cmd := by rw [hop, cmdWord_fields]
  have hcmdZ (hz : op.format = .z) : cmdWord 0 op.toByte = t.cmd := harg hz ▸ hcmd
  cases op with
  | init | finalize =>
    rw [operands, encode, hcmdZ rfl, ← List.length_eq_zero_iff.mp hpw, ← List.length_eq_zero_iff.mp hpb]
  | update => rw [operands, encode, hcmd, ← List.length_eq_zero_iff.mp hpw]
  | decw =>
    obtain ⟨pb, hi, hbytes⟩ := operands_decw t h
    rw [hi, encode, hcmdZ rfl, hbytes, ← List.length_eq_zero_iff.mp hpw]
  | encw =>
    obtain ⟨w, hi, hword⟩ := operands_encw t h
    rw [hi, encode, hcmdZ rfl, hword, ← List.length_eq_zero_iff.mp hpb]
  | compress =>
    obtain ⟨st, blk, hi, hwords, hbytes⟩ := operands_compress t h
    rw [hi, encode, hcmdZ rfl, hwords, hbytes]

/-! ### Every answer of the decoder (R66, R67) -/

/-- R66: an OPC that no row of R63 has is refused whatever else the transaction holds. -/
theorem decode_of_not_legalOpc {t : Transaction} (h : ¬ Machine.LegalOpc (opcField t.cmd)) :
    decode t = .error .illegalOpcode := by
  have hnone : Opcode.ofByte (opcField t.cmd) = none :=
    Opcode.ofByte_eq_none.mpr fun op hop => h ((Machine.legalOpc_iff _).mpr ⟨op, hop⟩)
  rw [decode, hnone]

/-- R64: a transaction of a known opcode that fails a check is refused. -/
theorem decode_of_not_shapeOk {t : Transaction} {op : Opcode} (hop : op.toByte = opcField t.cmd)
    (h : ¬ ShapeOk op t) : decode t = .error .badOperand := by
  rw [decode, ← hop, Opcode.ofByte_toByte]
  exact dif_neg h

/-- The decoder accepts exactly the transactions of the right shape, and answers their operands. -/
theorem decode_eq_ok_iff {t : Transaction} {i : Instr} :
    decode t = .ok i ↔ ∃ (op : Opcode) (h : ShapeOk op t), op.toByte = opcField t.cmd ∧ operands op t h = i := by
  constructor
  · intro hok
    rcases decode_cases t with ⟨-, herr⟩ | ⟨op, -, -, herr⟩ | ⟨op, hshape, hop, hi⟩
    · cases herr.symm.trans hok
    · cases herr.symm.trans hok
    · exact ⟨op, hshape, Opcode.ofByte_eq_some.mp hop, Except.ok.inj (hi.symm.trans hok)⟩
  · rintro ⟨op, hshape, hop, rfl⟩
    exact decode_of_shapeOk hop hshape

/-! ### The decoder against the encoder and the opcode map -/

/-- Settles O1: the encoding of a well-formed command has its row's shape, and its operands are the command's. -/
theorem decodeOfEncode : Obligations.DecodeOfEncode := fun _ => decode_encode

/-- Settles O2: a transaction that decodes has the shape of its opcode's row, and such a transaction is the encoding of
its operands. -/
theorem encodeOfDecode : Obligations.EncodeOfDecode := by
  intro t i hdec
  obtain ⟨op, hshape, hop, rfl⟩ := decode_eq_ok_iff.mp hdec
  exact ⟨operands_wellFormed op t hshape, encode_operands hop hshape⟩

/-- Settles O3: the decoder looks up OPC, then checks the shape, then takes the operands; a legal OPC has one row, so
each number stands for its own command. -/
theorem decodeIsTotal : Obligations.DecodeIsTotal := by
  intro t
  refine ⟨decode_of_not_legalOpc, fun hlegal hbad => ?_, fun hlegal hshaped => ?_⟩
  · obtain ⟨op, hop⟩ := (Machine.legalOpc_iff _).mp hlegal
    exact decode_of_not_shapeOk hop (hbad ∘ (Machine.wellShaped_iff hop).mpr)
  · obtain ⟨op, hop⟩ := (Machine.legalOpc_iff _).mp hlegal
    have hshape := (Machine.wellShaped_iff hop).mp hshaped
    have hrow {op' : Opcode} (h : opcField t.cmd = op'.toByte) : op = op' := Opcode.toByte_injective (hop.trans h)
    refine ⟨operands op t hshape, decode_of_shapeOk hop hshape, ?_, ?_, ?_, ?_, ?_, ?_⟩
    · intro h
      cases hrow (op' := .init) h
      rfl
    · intro h
      cases hrow (op' := .update) h
      rfl
    · intro h
      cases hrow (op' := .finalize) h
      rfl
    · intro h
      cases hrow (op' := .decw) h
      exact operands_decw t hshape
    · intro h
      cases hrow (op' := .encw) h
      exact operands_encw t hshape
    · intro h
      cases hrow (op' := .compress) h
      exact operands_compress t hshape

/-- Settles O4: the first six transactions are encodings; of the last two the one has no row's OPC, and the other is
INIT's with ARG not 0. -/
theorem writtenOutWordsDecode : Obligations.WrittenOutWordsDecode := by
  refine ⟨decode_encode (i := .init) rfl, decode_encode (i := .update 3 [0x61, 0x62, 0x63]) rfl,
    decode_encode (i := .finalize) rfl, decode_encode (i := .decw #v[0x78, 0x56, 0x34, 0x12]) rfl,
    decode_encode (i := .encw 0x67452301) rfl,
    decode_encode (i := .compress ⟨1, 2, 3, 4⟩ (Vector.replicate 64 0x61)) rfl,
    decode_of_not_legalOpc ?_, decode_of_not_shapeOk (op := .init) rfl ?_⟩
  · unfold Machine.LegalOpc
    decide
  · decide

end Sys2Proof

namespace Sys2Proof.Machine

/-! ### The size of a response (R62, R63) -/

/-- R62, R63: what a response to `i` carries: its row's numbers of words and bytes on OK, and nothing on an error. -/
structure Response.FitsRow (r : Response) (i : Instr) : Prop where
  onError : r.sts ≠ .ok → r.rw = [] ∧ r.rb = []
  onOk : r.sts = .ok → r.rw.length = i.opcode.rwCount ∧ r.rb.length = i.opcode.rbCount

/-- A response that reports an error fits every row if it is empty. -/
theorem fitsRow_of_error {e : Status} (h : e ≠ .ok) (i : Instr) : Response.FitsRow ⟨e, [], []⟩ i :=
  ⟨fun _ => ⟨rfl, rfl⟩, fun hok => absurd hok h⟩

/-- A response that reports OK fits the row whose numbers it has. -/
theorem fitsRow_of_ok {rw : List Word} {rb : List Byte} {i : Instr} (hrw : rw.length = i.opcode.rwCount)
    (hrb : rb.length = i.opcode.rbCount) : Response.FitsRow ⟨.ok, rw, rb⟩ i :=
  ⟨fun h => absurd rfl h, fun _ => ⟨hrw, hrb⟩⟩

/-- Every command that completes answers a response of its row's size. -/
theorem exec_fitsRow {i : Instr} {s t : State} (h : exec i s = .next t) :
    ∃ r : Response, t.output = s.output ++ [r] ∧ r.FitsRow i := by
  cases i with
  | update n pb =>
    rcases execUpdate_next h with ⟨-, rfl⟩ | ⟨-, -, rfl⟩ | ⟨-, -, -, rfl⟩ | ⟨-, -, -, rfl⟩
    · exact ⟨_, rfl, fitsRow_of_error (by decide) _⟩
    · exact ⟨_, rfl, fitsRow_of_error (by decide) _⟩
    · exact ⟨_, rfl, fitsRow_of_ok rfl rfl⟩
    · exact ⟨_, rfl, fitsRow_of_ok rfl rfl⟩
  | finalize =>
    rcases execFinalize_next h with ⟨-, rfl⟩ | ⟨-, rfl⟩
    · exact ⟨_, rfl, fitsRow_of_error (by decide) _⟩
    · exact ⟨_, rfl, fitsRow_of_ok rfl (digestBytes_length _)⟩
  | encw w =>
    cases h
    exact ⟨_, rfl, fitsRow_of_ok rfl (encodeWord w).length_toList⟩
  | init | decw _ | compress _ _ =>
    cases h
    exact ⟨_, rfl, fitsRow_of_ok rfl rfl⟩

/-- Settles O43: safe states answer every transaction; a refusal answers its status alone, and a command a response of
its row's size. -/
theorem oneResponsePerCommand : Obligations.OneResponsePerCommand := by
  refine ⟨fun tx s hsafe => ?_, fun tx s t h => ⟨(runTransaction_next h).1, ?_⟩⟩
  · obtain ⟨t, hrun, -⟩ := runTransaction_safe tx hsafe
    exact ⟨t, hrun⟩
  · cases hdec : decode tx with
    | ok i =>
      obtain ⟨r, hout, hrow⟩ := exec_fitsRow (runTransaction_ok hdec ▸ h)
      exact ⟨r, hout, hrow.onError, fun hok => ⟨i, rfl, hrow.onOk hok⟩⟩
    | error e =>
      rw [runTransaction_error hdec] at h
      cases h
      refine ⟨_, rfl, fun _ => ⟨rfl, rfl⟩, fun hok => ?_⟩
      cases e <;> cases hok

/-! ### UPDATE_LONG (R71) -/

/-- Chunks of at least one byte, put together, are the sequence they were cut from. -/
theorem chunksOf_flatten {size : Nat} (hsize : 1 ≤ size) (fuel : Nat) (m : List Byte) (hfuel : m.length ≤ fuel) :
    (chunksOf size fuel m).flatten = m := by
  induction fuel generalizing m with
  | zero => exact (List.length_eq_zero_iff.mp (Nat.le_zero.mp hfuel)).symm
  | succ fuel ih =>
    rw [chunksOf]
    split
    · next hnil => exact (List.isEmpty_iff.mp hnil).symm
    · rw [List.flatten_cons, ih _ (by rw [List.length_drop]; omega), List.take_append_drop]

/-- A chunk has from one byte to the chunk size. -/
theorem length_of_mem_chunksOf {size : Nat} (hsize : 1 ≤ size) {fuel : Nat} {m c : List Byte}
    (hc : c ∈ chunksOf size fuel m) : 1 ≤ c.length ∧ c.length ≤ size := by
  induction fuel generalizing m with
  | zero => simp [chunksOf] at hc
  | succ fuel ih =>
    rw [chunksOf] at hc
    split at hc
    · simp at hc
    · next hne =>
      rcases List.mem_cons.mp hc with rfl | htail
      · have hpos : 1 ≤ m.length := List.length_pos_iff.mpr fun h => hne (List.isEmpty_iff.mpr h)
        rw [List.length_take]
        omega
      · exact ih htail

theorem one_le_maxChunk : 1 ≤ Config.maxChunk := by decide

theorem longChunks_flatten (m : List Byte) : (longChunks m).flatten = m :=
  chunksOf_flatten one_le_maxChunk m.length m (Nat.le_refl _)

theorem length_of_mem_longChunks {m c : List Byte} (hc : c ∈ longChunks m) :
    1 ≤ c.length ∧ c.length ≤ Config.maxChunk := length_of_mem_chunksOf one_le_maxChunk hc

/-! ### Absorbing pieces (R158's reason) -/

theorem sameButStale_refl (e : DigestState) : e.SameButStale e := ⟨rfl, rfl, rfl, rfl⟩

theorem DigestState.SameButStale.trans {e e' e'' : DigestState} (h : e.SameButStale e') (h' : e'.SameButStale e'') :
    e.SameButStale e'' :=
  ⟨h.acc.trans h'.acc, h.len.trans h'.len, h.pending.trans h'.pending, h.phase.trans h'.phase⟩

theorem DigestState.SameButStale.withPhase {e e' : DigestState} (h : e.SameButStale e') (p : PhaseReg) :
    DigestState.SameButStale { e with phase := p } { e' with phase := p } := ⟨h.acc, h.len, h.pending, rfl⟩

/-- Two pieces leave the pending bytes of the whole: the tail after its last complete block. -/
theorem absorb_absorb_pending (e : DigestState) (x y : List Byte) :
    (absorb (absorb e x) y).pending = (absorb e (x ++ y)).pending := by
  have hle : 64 * ((e.pending ++ x).length / 64) ≤ (e.pending ++ x).length := Nat.mul_div_le _ _
  rw [absorb_pending (absorb e x), absorb_pending e x, absorb_pending e, ← List.append_assoc,
    ← List.drop_append_of_le_length hle, List.drop_drop]
  congr 1
  simp only [List.length_drop, List.length_append] at hle ⊢
  omega

/-- R158's reason: absorbing two pieces is absorbing them together, up to stale bytes. -/
theorem absorb_absorb_sameButStale (e : DigestState) (x y : List Byte) :
    (absorb (absorb e x) y).SameButStale (absorb e (x ++ y)) where
  acc := by rw [absorb_acc, absorb_acc e x, absorb_acc e, absorbedBlocks_append, List.foldl_append]
  len := by rw [absorb_len, absorb_len, absorb_len, advanceLen_advanceLen, List.length_append]
  pending := absorb_absorb_pending e x y
  phase := by rw [absorb_phase, absorb_phase, absorb_phase]

/-- A non-empty UPDATE as the next event of a live state: the step absorbs it and ends in UPDATING. -/
theorem step_updateOf {s : State} {c : List Byte} {evs : List HostEvent} (hlive : s.Live) (hpos : 1 ≤ c.length)
    (hmax : c.length ≤ Config.maxChunk) (hin : s.input = .command (encode (updateOf c)) :: evs) :
    ∃ t : State, step s = .next t ∧ t.input = evs
      ∧ t.engine = { absorb s.engine c with phase := phaseUpdating } := by
  have hne : c ≠ [] := List.length_pos_iff.mp hpos
  have hexec := exec_update_live (s := { s with input := evs }) hlive (toNat_chunk_length hmax).symm
  rw [if_neg hne] at hexec
  exact ⟨_, (step_command (updateOf_wellFormed hmax) hin).trans hexec, rfl, rfl⟩

/-- Non-empty UPDATEs run one after the other absorb the concatenation of their chunks, up to stale bytes. -/
theorem run_updates_sameButStale (chunks : List (List Byte)) (rest : List HostEvent) {s : State} (hlive : s.Live)
    (hlen : ∀ c ∈ chunks, 1 ≤ c.length ∧ c.length ≤ Config.maxChunk)
    (hin : s.input = commandEvents (chunks.map updateOf) ++ rest) :
    ∃ t : State, core.run chunks.length s = .next t ∧ t.input = rest
      ∧ t.engine.SameButStale
          { absorb s.engine chunks.flatten with
            phase := if chunks.flatten = [] then s.engine.phase else phaseUpdating } := by
  induction chunks generalizing s with
  | nil => exact ⟨s, rfl, hin, sameButStale_refl _⟩
  | cons c cs ih =>
    obtain ⟨⟨hpos, hmax⟩, hcs⟩ := List.forall_mem_cons.mp hlen
    obtain ⟨s', hstep, hin', heng⟩ := step_updateOf hlive hpos hmax hin
    have hphase : s'.engine.phase = phaseUpdating := by rw [heng]
    obtain ⟨t, hrun, htin, ht⟩ := ih (.inr hphase) hcs hin'
    refine ⟨t, (run_succ_next hstep).trans hrun, htin, ?_⟩
    have hne : c ++ cs.flatten ≠ [] := List.append_ne_nil_of_left_ne_nil (List.length_pos_iff.mp hpos) _
    rw [hphase, ite_self, heng, absorb_withPhase] at ht
    rw [List.flatten_cons, if_neg hne]
    exact ht.trans ((absorb_absorb_sameButStale s.engine c cs.flatten).withPhase phaseUpdating)

/-- Settles O52: the chunks recombine, and one UPDATE after the other absorbs what they put together. -/
theorem updateLongActsAsOneAbsorb : Obligations.UpdateLongActsAsOneAbsorb := by
  intro m
  refine ⟨longChunks_flatten m, fun c => length_of_mem_longChunks, fun s rest hlive hin => ?_⟩
  have hrun := run_updates_sameButStale (longChunks m) rest hlive (fun c => length_of_mem_longChunks) hin
  rwa [longChunks_flatten] at hrun

/-! ### The assembler (R70, R71) -/

/-- R70's `(N << 8) | 0x02` is the command word with N in ARG. -/
theorem shiftLeft_or_eq_cmdWord {n : Nat} (h : n ≤ Config.maxChunk) :
    (BitVec.ofNat 32 n <<< 8) ||| 0x02 = cmdWord (BitVec.ofNat 24 n) Opcode.update.toByte := by
  have hlt : n < 2 ^ 24 := Nat.lt_of_le_of_lt h (by decide)
  have harg : (BitVec.ofNat 24 n).setWidth 32 = BitVec.ofNat 32 n := BitVec.setWidth_ofNat_of_le_of_lt (by decide) hlt
  rw [cmdWord, harg]
  rfl

/-- A chunk of at most MAX_CHUNK bytes assembles to the encoding of its UPDATE. -/
theorem assembleUpdate_eq {bs : List Byte} (h : bs.length ≤ Config.maxChunk) :
    assembleUpdate bs = some (encode (updateOf bs)) := by
  rw [assembleUpdate, if_pos h, shiftLeft_or_eq_cmdWord h]
  rfl

theorem mapM_assembleUpdate {chunks : List (List Byte)} (h : ∀ c ∈ chunks, c.length ≤ Config.maxChunk) :
    chunks.mapM assembleUpdate = some ((chunks.map updateOf).map encode) := by
  induction chunks with
  | nil => rfl
  | cons c cs ih =>
    obtain ⟨hc, hcs⟩ := List.forall_mem_cons.mp h
    rw [List.mapM_cons, assembleUpdate_eq hc, ih hcs]
    rfl

/-- R71: `UPDATE_LONG` assembles to the encodings of its chunks' UPDATEs. -/
theorem assembleUpdateLong_eq (m : List Byte) :
    assembleUpdateLong m = some (((longChunks m).map updateOf).map encode) :=
  mapM_assembleUpdate fun _ hc => (length_of_mem_longChunks hc).2

/-- R71: `HASH` assembles to the encodings of INIT, those UPDATEs, and FINALIZE. -/
theorem assembleHash_eq (m : List Byte) :
    assembleHash m = some ((Instr.init :: (longChunks m).map updateOf ++ [Instr.finalize]).map encode) := by
  rw [assembleHash, assembleUpdateLong_eq, List.map_append]
  rfl

/-- Settles O53: each line's transaction is the encoding of its command. -/
theorem assemblerSendsTheEncodings : Obligations.AssemblerSendsTheEncodings := by
  refine ⟨rfl, rfl, fun x bs hx hmax => ?_, fun x pb hx => ?_, fun w => rfl, fun a b c d x blk hx => ?_,
    fun x bs hx => ?_⟩
  · rw [AsmLine.assemble, hx, Option.bind_some, assembleUpdate_eq hmax]
    rfl
  · rw [AsmLine.assemble, hx, Option.bind_some, if_pos pb.length_toList]
    rfl
  · rw [AsmLine.assemble, hx, Option.bind_some, if_pos blk.length_toList]
    rfl
  · rw [AsmLine.assemble, hx, Option.bind_some, assembleHash_eq]

/-! ### The payload after CMD (R69) -/

/-- The payload lengths CMD asks for, where its OPC is a row's. -/
theorem payloadShape_of_toByte {op : Opcode} {cmd : Word} (hop : op.toByte = opcField cmd) :
    payloadShape cmd = (op.pwCount, op.pbCount (argField cmd)) := by
  rw [payloadShape, ← hop, Opcode.ofByte_toByte]

/-- A transaction whose payload has the lengths its CMD asks for comes off the front of any stream. -/
theorem takeTransaction_beatsOf {t : Transaction} (rest : List Beat)
    (h : payloadShape t.cmd = (t.pw.length, t.pb.length)) :
    takeTransaction (beatsOf t ++ rest) = some (t, rest) := by
  rw [beatsOf, List.cons_append, List.append_assoc, takeTransaction, h, takeWords_append, Option.bind_some,
    takeBytes_append]
  rfl

/-- Everything the reader can answer: a transaction that stood in front, with the payload its CMD asks for. -/
theorem takeTransaction_some {bs rest : List Beat} {t : Transaction} (h : takeTransaction bs = some (t, rest)) :
    bs = beatsOf t ++ rest ∧ payloadShape t.cmd = (t.pw.length, t.pb.length) := by
  match bs with
  | [] => cases h
  | .byte _ :: _ => cases h
  | .word cmd :: bs =>
    simp only [takeTransaction, Option.bind_eq_some_iff, Option.map_eq_some_iff, Prod.mk.injEq] at h
    obtain ⟨⟨pw, bs'⟩, hwords, ⟨pb, bs''⟩, hbytes, rfl, rfl⟩ := h
    obtain ⟨hpw, rfl⟩ := takeWords_some hwords
    obtain ⟨hpb, rfl⟩ := takeBytes_some hbytes
    exact ⟨by simp [beatsOf], Prod.ext hpw.symm hpb.symm⟩

/-- Where the payload has the lengths CMD asks for, the one check that can fail is `arg_ok`. -/
theorem arg_ne_zero_of_badOperand {t : Transaction} (hshape : payloadShape t.cmd = (t.pw.length, t.pb.length))
    (hdec : decode t = .error .badOperand) : opcField t.cmd ≠ 0x02 ∧ argField t.cmd ≠ 0 := by
  rcases decode_cases t with ⟨-, hill⟩ | ⟨op, hop, hbad, -⟩ | ⟨op, h, -, hok⟩
  · cases hill.symm.trans hdec
  · have hop' := Opcode.ofByte_eq_some.mp hop
    obtain ⟨hpw, hpb⟩ := Prod.mk.inj ((payloadShape_of_toByte hop').symm.trans hshape)
    have harg : ¬ ArgOk op t := fun harg => hbad ⟨harg, hpw.symm, hpb.symm⟩
    obtain ⟨hz, hne⟩ := Classical.not_imp.mp harg
    refine ⟨fun h2 => ?_, hne⟩
    cases Opcode.toByte_injective (op' := .update) (hop'.trans h2)
    cases hz
  · cases hok.symm.trans hdec

/-- Settles O56: a well-formed command's payload has the lengths its CMD asks for, and so does everything the reader
takes. -/
theorem payloadLengthsFollowFromCmd : Obligations.PayloadLengthsFollowFromCmd := by
  refine ⟨fun i rest hi => ?_, fun bs rest t h => ?_⟩
  · obtain ⟨hop, -, hpw, hpb⟩ := encode_shapeOk i hi
    exact takeTransaction_beatsOf rest ((payloadShape_of_toByte hop.symm).trans (Prod.ext hpw.symm hpb.symm))
  · obtain ⟨hbeats, hshape⟩ := takeTransaction_some h
    exact ⟨hbeats, arg_ne_zero_of_badOperand hshape⟩

end Sys2Proof.Machine

/-! PROOFS. The codec (spec/40_codec.md): a word is the number its four bytes write in base 256, so decoding and encoding
undo each other; what DECW and ENCW answer; and what a command sent again does (R45). -/

namespace Sys2Proof.Machine

/-! ### Words and bytes as numbers (R100, R101) -/

/-- A byte placed above a value does not overlap it, so OR adds. -/
theorem toNat_or_shiftLeft_byte {x : Word} {k : Nat} (b : Byte) (hx : x.toNat < 2 ^ k) (hk : k + 8 ≤ 32) :
    (x ||| (b.setWidth 32) <<< k).toNat = x.toNat + 2 ^ k * b.toNat := by
  have hfits : b.toNat <<< k < 2 ^ 32 :=
    Nat.lt_of_lt_of_le (Nat.shiftLeft_lt b.isLt) (Nat.pow_le_pow_right (by decide) (by omega))
  rw [BitVec.toNat_or, BitVec.toNat_shiftLeft, BitVec.toNat_setWidth_of_le (by decide), Nat.mod_eq_of_lt hfits,
    Nat.or_comm, ← Nat.shiftLeft_add_eq_or_of_lt hx, Nat.shiftLeft_eq, Nat.add_comm, Nat.mul_comm]

/-- R100: the number four bytes write in base 256, the first least significant. -/
theorem toNat_decodeWord {n : Nat} (m : Vector Byte n) (o : Nat) (h : o + 4 ≤ n) :
    (decodeWord m o h).toNat
      = m[o].toNat + 2 ^ 8 * m[o + 1].toNat + 2 ^ 16 * m[o + 2].toNat + 2 ^ 24 * m[o + 3].toNat := by
  have h₀ : (m[o].setWidth 32).toNat = m[o].toNat := BitVec.toNat_setWidth_of_le (by decide)
  have h₁ := toNat_or_shiftLeft_byte (x := m[o].setWidth 32) (k := 8) m[o + 1] (by omega) (by decide)
  have h₂ := toNat_or_shiftLeft_byte (k := 16) m[o + 2] (h₁.trans_lt (by omega)) (by decide)
  have h₃ := toNat_or_shiftLeft_byte (k := 24) m[o + 3] (h₂.trans_lt (by omega)) (by decide)
  rw [decodeWord, h₃, h₂, h₁, h₀]

/-- R101: byte `k` of the encoding is bits `8k` to `8k + 7` of the word. -/
theorem getElem_encodeWord (w : Word) (k : Nat) (hk : k < 4) : (encodeWord w)[k] = w.extractLsb' (8 * k) 8 := by
  match k with
  | 0 | 1 | 2 | 3 => rfl

/-- The eight bits of a word from bit `k` up, as a number. -/
theorem toNat_extractLsb'_eight (w : Word) (k : Nat) : (w.extractLsb' k 8).toNat = w.toNat / 2 ^ k % 256 := by
  rw [BitVec.extractLsb'_toNat, Nat.shiftRight_eq_div_pow]

/-- R101: the bytes of a word are the base-256 digits of its value, least significant first. -/
theorem map_toNat_encodeWord (w : Word) :
    (encodeWord w).toList.map BitVec.toNat
      = [w.toNat % 256, w.toNat / 2 ^ 8 % 256, w.toNat / 2 ^ 16 % 256, w.toNat / 2 ^ 24 % 256] := by
  have hlist : (encodeWord w).toList
      = [w.extractLsb' 0 8, w.extractLsb' 8 8, w.extractLsb' 16 8, w.extractLsb' 24 8] := rfl
  simp only [hlist, List.map_cons, List.map_nil, toNat_extractLsb'_eight, Nat.pow_zero, Nat.div_one]

/-- R100: bits `8k` to `8k + 7` of a decoded word are the byte at `o + k`. -/
theorem extractLsb'_decodeWord {n : Nat} (m : Vector Byte n) (o : Nat) (h : o + 4 ≤ n) (k : Nat) (hk : k < 4) :
    (decodeWord m o h).extractLsb' (8 * k) 8 = m[o + k] := by
  apply BitVec.eq_of_toNat_eq
  rw [toNat_extractLsb'_eight, toNat_decodeWord]
  match k with
  | 0 =>
    simp only [Nat.mul_zero, Nat.pow_zero, Nat.div_one, Nat.add_zero]
    omega
  | 1 | 2 | 3 => omega

/-- R102: the digits of a word, put together, are the word. -/
theorem decodeWord_encodeWord (w : Word) : decodeWord (encodeWord w) 0 (by decide) = w := by
  apply BitVec.eq_of_toNat_eq
  simp only [toNat_decodeWord, getElem_encodeWord, toNat_extractLsb'_eight]
  omega

/-- R102: the bytes of the word that four bytes write are those bytes. -/
theorem encodeWord_decodeWord (m : Vector Byte 4) : encodeWord (decodeWord m 0 (by decide)) = m := by
  apply Vector.ext
  intro k hk
  simp only [getElem_encodeWord, extractLsb'_decodeWord m 0 (by decide) k hk, Nat.zero_add]

/-- Settles O5: both directions compare base-256 digits. -/
theorem codecFunctionsAreInverse : Obligations.CodecFunctionsAreInverse :=
  ⟨decodeWord_encodeWord, encodeWord_decodeWord⟩

/-! ### The codec commands (R103, R104) -/

/-- Settles O7: DECW only responds, with the word its bytes write. -/
theorem decwAnswersItsWord : Obligations.DecwAnswersItsWord := fun pb _ =>
  ⟨decodeWord pb 0 (by decide), rfl, toNat_decodeWord pb 0 (by decide)⟩

/-- Settles O8: ENCW only responds, with the digits of its word. -/
theorem encwAnswersItsBytes : Obligations.EncwAnswersItsBytes := fun w _ =>
  ⟨(encodeWord w).toList, rfl, map_toNat_encodeWord w⟩

/-! ### A command sent again (R45) -/

/-- R216: DECW, ENCW and COMPRESS give one response, the same in every state, and change nothing else. -/
theorem exec_stateless {i : Instr} (h : i.opcode = .decw ∨ i.opcode = .encw ∨ i.opcode = .compress) :
    ∃ r : Response, ∀ s : State, exec i s = .next { s with output := s.output ++ [r] } := by
  cases i with
  | decw _ | encw _ | compress _ _ => exact ⟨_, fun _ => rfl⟩
  | init | update _ _ | finalize => simp [Instr.opcode] at h

/-- R155, R203: FINALIZE leaves a spent state, whether it answers the digest or MISUSE. -/
theorem exec_finalize_phase {s t : State} (h : exec .finalize s = .next t) : t.engine.phase = phaseFinalized := by
  rcases execFinalize_next h with ⟨hspent, rfl⟩ | ⟨-, rfl⟩
  · exact hspent
  · rfl

/-- R147: an UPDATE with N ≥ 1 in a live state completes, ends in UPDATING, advances LEN, and extends the message the
state stands for. -/
theorem exec_update_extends {s : State} {n : BitVec 24} {pb : List Byte} (hlive : s.Live) (hn : pb.length = n.toNat)
    (h0 : n ≠ 0) :
    ∃ t : State, exec (.update n pb) s = .next t ∧ t.Live ∧ t.engine.len = advanceLen s.engine.len n.toNat
      ∧ ∀ m, s.engine.Holds m → t.engine.Holds (m ++ pb) := by
  have hne : pb ≠ [] := by
    rintro rfl
    exact h0 (BitVec.eq_of_toNat_eq hn.symm)
  have hexec := exec_update_live hlive hn
  rw [if_neg hne] at hexec
  refine ⟨_, hexec, .inr rfl, by simp [hn], fun m hm => ?_⟩
  obtain ⟨t, hexec', hholds, -⟩ := exec_update_holds hm hn
  rwa [Host.Outcome.next.inj (hexec.symm.trans hexec')]

/-- R141: an N that is not 0 moves LEN, because `8 * N` does not reach 2^64. -/
theorem advanceLen_ne (len : BitVec 64) {n : BitVec 24} (h0 : n ≠ 0) : advanceLen len n.toNat ≠ len := by
  have hlt := n.isLt
  have hpos : n.toNat ≠ 0 := fun h => h0 (BitVec.eq_of_toNat_eq h)
  intro h
  have hzero : BitVec.ofNat 64 (8 * n.toNat) = 0#64 := BitVec.add_right_eq_self.mp h
  have hval := congrArg BitVec.toNat hzero
  rw [BitVec.toNat_ofNat, BitVec.toNat_zero] at hval
  omega

/-- Settles O45: the stateless commands do not read the state, INIT leaves the initial engine, FINALIZE leaves a spent
state, and UPDATE leaves a live one that stands for the longer message. -/
theorem sendingACommandAgain : Obligations.SendingACommandAgain := by
  refine ⟨fun i s t hi h => ?_, fun s t u ht hu => ?_, fun s t h => exec_finalize_finalized (exec_finalize_phase h),
    fun n pb s hn h0 hlive => ?_⟩
  · obtain ⟨r, hr⟩ := exec_stateless hi
    cases (hr s).symm.trans h
    exact ⟨rfl, r, rfl, hr _⟩
  · cases ht
    cases hu
    rfl
  · obtain ⟨t, ht, hlive', -, hmsg⟩ := exec_update_extends hlive hn h0
    obtain ⟨u, hu, -, hlen, hmsg'⟩ := exec_update_extends hlive' hn h0
    exact ⟨t, u, ht, hu, hlen, hlen ▸ advanceLen_ne _ h0, fun m hm => ⟨hmsg m hm, hmsg' _ (hmsg m hm)⟩⟩

end Sys2Proof.Machine

/-! PROOFS. The compression transform (spec/41_compress.md): the mixing functions and the rotation bit by bit, the round
schedules, Compress as R123's loop, and R125's fixed-role form of the rounds. -/

namespace Sys2Proof.Machine

/-! ### Message words (R119) -/

/-- Settles O6: the codec's byte law at the offset `4j`. -/
theorem messageWordsAreLittleEndian : Obligations.MessageWordsAreLittleEndian := fun blk j =>
  ⟨rfl, fun k => extractLsb'_decodeWord blk (4 * j.val) (by omega) k.val k.isLt⟩

/-! ### Rotation (R114) -/

/-- R114: bit `n` of a rotation is bit `(n - s) mod 32` of the word. -/
theorem getElem_rotateLeft (x : Word) {s : Nat} (h1 : 1 ≤ s) (h2 : s ≤ 31) (n : Nat) (hn : n < 32) :
    (rotateLeft x s)[n] = x[(n + 32 - s) % 32]'(Nat.mod_lt _ (by decide)) := by
  rw [rotateLeft_eq x s h1 h2, BitVec.getElem_rotateLeft]
  split
  · exact getElem_congr_idx (by omega)
  · exact getElem_congr_idx (by omega)

/-- R118: the sixteen amounts of `SR`. -/
def rotationAmounts : List Nat := [4, 5, 6, 7, 9, 10, 11, 12, 14, 15, 16, 17, 20, 21, 22, 23]

theorem rotationAmount_mem (i : Fin 64) : rotationAmount i ∈ rotationAmounts := by
  revert i; decide

/-- R118: round `16 r + p` rotates by `SR[r][p]`. -/
theorem rotationAmount_at (r p : Fin 4) : rotationAmount ⟨16 * r.val + p.val, by omega⟩ = (stageRotations r)[p] := by
  revert r p; decide

theorem exists_rotationAmount_eq {s : Nat} (h : s ∈ rotationAmounts) : ∃ i, rotationAmount i = s := by
  have hmem : ∀ s ∈ rotationAmounts, ∃ r p : Fin 4, (stageRotations r)[p] = s := by decide
  obtain ⟨r, p, hrp⟩ := hmem s h
  exact ⟨_, (rotationAmount_at r p).trans hrp⟩

/-- Settles O10: the bit law of the rotation, and the schedule's amounts read off its table in both directions. -/
theorem rotateLeftMovesBits : Obligations.RotateLeftMovesBits := by
  refine ⟨fun x s h1 h2 => ⟨rfl, getElem_rotateLeft x h1 h2⟩, fun s => ⟨?_, exists_rotationAmount_eq⟩⟩
  rintro ⟨i, rfl⟩
  exact rotationAmount_mem i

/-! ### The fixed-role form (R125) -/

/-- The renaming at the end of a round (R120): each working variable takes its left neighbour's value. -/
def turnRoles (v : Accumulators) : Accumulators := ⟨v.d, v.a, v.b, v.c⟩

/-- Four renamings put every working variable back. -/
theorem turnRoles_isPeriodic (v : Accumulators) : Function.IsPeriodicPt turnRoles 4 v := rfl

theorem turnRoles_iterate_mod (n : Nat) (v : Accumulators) : turnRoles^[n % 4] v = turnRoles^[n] v :=
  (turnRoles_isPeriodic v).iterate_mod_apply n

/-- One round on roles turned `i mod 4` times is the fixed-role round, its result turned once more. -/
theorem roundStep_turnRoles (blk : Block) (i : Fin 64) (v : Accumulators) :
    roundStep blk i (turnRoles^[i.val % 4] v) = turnRoles (turnRoles^[i.val % 4] (fixedRoleStep blk i v)) := by
  have hlt : i.val % 4 < 4 := Nat.mod_lt _ (by decide)
  unfold fixedRoleStep
  match i.val % 4, hlt with
  | 0, _ | 1, _ | 2, _ | 3, _ => rfl

/-- R125: after `k` rounds the rename form holds the fixed-role form's variables, turned `k` times. -/
theorem roundsUpTo_eq_turnRoles (blk : Block) (s : Accumulators) (k : Nat) (hk : k ≤ 64) :
    roundsUpTo blk k hk s = turnRoles^[k] (fixedRolesUpTo blk k hk s) := by
  induction k with
  | zero => rfl
  | succ k ih =>
    rw [roundsUpTo_succ, fixedRolesUpTo_succ, ih, ← turnRoles_iterate_mod, roundStep_turnRoles blk ⟨k, hk⟩,
      turnRoles_iterate_mod, ← Function.iterate_succ_apply' turnRoles]

/-- Settles O12: 64 is a multiple of 4, so after all the rounds the roles are back in place. -/
theorem fixedRolesGiveTheSameCompress : Obligations.FixedRolesGiveTheSameCompress := fun s blk =>
  congrArg (feedForward s) ((roundsUpTo_eq_turnRoles blk s 64 _).trans (turnRoles_iterate_mod 64 _).symm)

/-! ### Stages (R117, R121) -/

theorem stage_eq {i : Fin 64} {r : Fin 4} (h : i.val / 16 = r.val) : stage i = r := Fin.ext h

theorem stage_eq_zero {i : Fin 64} (h : i.val < 16) : stage i = 0 := stage_eq (Nat.div_eq_of_lt h)

theorem stage_eq_one {i : Fin 64} (h : 16 ≤ i.val) (h' : i.val < 32) : stage i = 1 :=
  stage_eq (show i.val / 16 = 1 by omega)

theorem stage_eq_two {i : Fin 64} (h : 32 ≤ i.val) (h' : i.val < 48) : stage i = 2 :=
  stage_eq (show i.val / 16 = 2 by omega)

theorem stage_eq_three {i : Fin 64} (h : 48 ≤ i.val) : stage i = 3 :=
  stage_eq (show i.val / 16 = 3 by omega)

/-- R121: the mixing function of a round, by the range its index is in. -/
theorem mix_stage (i : Fin 64) (b c d : Word) :
    mix (stage i) b c d
      = if i.val < 16 then mixF b c d
        else if i.val < 32 then mixG b c d
        else if i.val < 48 then mixH b c d
        else mixI b c d := by
  split_ifs with h16 h32 h48
  · rw [stage_eq_zero h16, mix]
  · rw [stage_eq_one (by omega) h32, mix]
  · rw [stage_eq_two (by omega) h48, mix]
  · rw [stage_eq_three (by omega), mix]

/-! ### Compress as a loop (R123) -/

/-- R123: the first `k` rounds, in order, as a fold over the round numbers. -/
theorem roundsUpTo_eq_foldl (blk : Block) (s : Accumulators) (k : Nat) (hk : k ≤ 64) :
    roundsUpTo blk k hk s = Fin.foldl k (fun v i => roundStep blk (i.castLE hk) v) s := by
  induction k with
  | zero => rfl
  | succ k ih =>
    rw [roundsUpTo_succ, Fin.foldl_succ_last, ih]
    rfl

/-- Settles O57: the table is the literal words, and the loop folds rounds whose mixing function goes by stage. -/
theorem compressIsItsPseudocode : Obligations.CompressIsItsPseudocode := by
  refine ⟨by decide, fun s blk => ?_⟩
  simp only [← mix_stage]
  exact congrArg (feedForward s) (roundsUpTo_eq_foldl blk s 64 _)

/-! ### Mixing functions (R110 to R113) -/

/-- R110: `b` selects `c` or `d`. -/
theorem getLsbD_mixF (b c d : Word) (n : Nat) :
    (mixF b c d).getLsbD n = if b.getLsbD n then c.getLsbD n else d.getLsbD n := by
  simp only [mixF, BitVec.getLsbD_xor, BitVec.getLsbD_and]
  cases b.getLsbD n with
  | false => simp
  | true => simp [Bool.xor_comm (c.getLsbD n)]

/-- R111: G is F with its operands turned, so `d` selects `b` or `c`. -/
theorem mixG_eq_mixF (b c d : Word) : mixG b c d = mixF d b c := rfl

/-- Settles O9: the formulas are the definitions, and each bit is the operators' bit law. -/
theorem mixingFunctionsBitByBit : Obligations.MixingFunctionsBitByBit := by
  intro b c d
  refine ⟨rfl, rfl, rfl, ?_, fun n hn => ⟨getLsbD_mixF b c d n, ?_, ?_, ?_⟩⟩
  · rw [mixI, ← BitVec.xor_allOnes]
    rfl
  · rw [mixG_eq_mixF, getLsbD_mixF]
  · rw [mixH, BitVec.getLsbD_xor, BitVec.getLsbD_xor]
  · simp [mixI, hn]

/-! ### Round schedules (R117, R118) -/

/-- Settles O11: K by the stage of the round, and what the two tables hold. -/
theorem roundSchedules : Obligations.RoundSchedules := by
  refine ⟨fun i => ⟨fun h => ?_, fun h h' => ?_, fun h h' => ?_, fun h => ?_⟩, by decide, by decide⟩
  · rw [wordIndex, stage_eq_zero h]
  · rw [wordIndex, stage_eq_one h h']
  · rw [wordIndex, stage_eq_two h h']
  · rw [wordIndex, stage_eq_three h]

/-! ### The COMPRESS command (R126) -/

/-- Settles O13: COMPRESS only responds, with the four words of the transform. -/
theorem compressAnswersItsTransform : Obligations.CompressAnswersItsTransform := fun _ _ _ => rfl

end Sys2Proof.Machine

/-! PROOFS. The Digest Engine (spec/42_engine.md): what Absorb does to LEN, BUF and the accumulators, how INIT, UPDATE and
FINALIZE complete, how PHASE moves, and that no command reads a stale byte. -/

namespace Sys2Proof.Machine

/-! ### The length counter on its halves (R141) -/

/-- R141: the 33-bit sum of the low half and the low 32 bits of the advance. -/
def lowSum (len : BitVec 64) (n : Nat) : BitVec 33 := (lenLo len).setWidth 33 + BitVec.ofNat 33 (8 * n % 2 ^ 32)

theorem toNat_lowSum (len : BitVec 64) (n : Nat) :
    (lowSum len n).toNat = len.toNat % 2 ^ 32 + 8 * n % 2 ^ 32 := by
  rw [lowSum, BitVec.toNat_add, BitVec.toNat_setWidth, toNat_lenLo, BitVec.toNat_ofNat]
  omega

theorem toNat_advanceLen (len : BitVec 64) (n : Nat) :
    (advanceLen len n).toNat = (len.toNat + 8 * n) % 2 ^ 64 := by
  rw [advanceLen, BitVec.toNat_add, BitVec.toNat_ofNat, Nat.add_mod_mod]

/-- R141: the low half is the low 32 bits of the 33-bit sum. -/
theorem lenLo_advanceLen (len : BitVec 64) (n : Nat) :
    lenLo (advanceLen len n) = (lowSum len n).extractLsb' 0 32 := by
  apply BitVec.eq_of_toNat_eq
  rw [toNat_lenLo, toNat_advanceLen, BitVec.extractLsb'_toNat, toNat_lowSum, Nat.shiftRight_zero]
  omega

/-- R141: the high half takes the carry of the low half and the bits of `8 * n` from 32 up, which are `n >> 29`. -/
theorem lenHi_advanceLen (len : BitVec 64) (n : Nat) :
    lenHi (advanceLen len n)
      = lenHi len + ((lowSum len n).extractLsb' 32 1).setWidth 32 + BitVec.ofNat 32 (n >>> 29) := by
  have hsplit : (len.toNat + 8 * n) / 2 ^ 32
      = len.toNat / 2 ^ 32 + (len.toNat % 2 ^ 32 + 8 * n % 2 ^ 32) / 2 ^ 32 + n / 2 ^ 29 := by omega
  have hcarry : (((lowSum len n).extractLsb' 32 1).setWidth 32).toNat
      = (len.toNat % 2 ^ 32 + 8 * n % 2 ^ 32) / 2 ^ 32 := by
    rw [BitVec.toNat_setWidth, BitVec.extractLsb'_toNat, toNat_lowSum, Nat.shiftRight_eq_div_pow]
    omega
  apply BitVec.eq_of_toNat_eq
  rw [toNat_lenHi, toNat_advanceLen, show 2 ^ 64 = 2 ^ 32 * 2 ^ 32 from rfl, Nat.mod_mul_right_div_self, hsplit,
    BitVec.toNat_add, BitVec.toNat_add, hcarry, toNat_lenHi, BitVec.toNat_ofNat, Nat.shiftRight_eq_div_pow,
    Nat.mod_add_mod, Nat.add_mod_mod]

/-- Settles O19: Absorb advances LEN, and the advance is compared with the sum on each half as numbers. -/
theorem lengthCounterOnHalves : Obligations.LengthCounterOnHalves :=
  ⟨fun e m => ⟨absorb_len e m, absorb_len e m⟩,
    fun len n => ⟨lenLo_advanceLen len n, lenHi_advanceLen len n⟩,
    fun n hn => Nat.shiftRight_eq_zero n 29 (Nat.lt_of_le_of_lt hn (by decide))⟩

/-! ### The two branches of Absorb (R142, R143 to R145) -/

/-- R142: an input that does not fill the block is written at fill, and LEN advances. -/
theorem absorb_of_lt_space {e : DigestState} {m : List Byte} (h : m.length < space e.len) :
    absorb e m = { e with len := advanceLen e.len m.length, buf := writeBuf e.buf (fill e.len) m } := by
  cases m with
  | nil => rw [absorb_nil, List.length_nil, advanceLen_zero, writeBuf]
  | cons b bs => rw [absorb, if_neg (by simp), if_neg (Nat.not_le.mpr h)]

/-- The pending block as R143 completes it. -/
def DigestState.completedBlock (e : DigestState) (m : List Byte) : Block :=
  writeBuf e.buf (fill e.len) (m.take (space e.len))

/-- R143 to R145: an input that fills the block completes it, gives its further blocks to Compress, and leaves its
remainder at the head of BUF. -/
theorem absorb_of_space_le {e : DigestState} {m : List Byte} (h : space e.len ≤ m.length) :
    absorb e m =
      { e with
        len := advanceLen e.len m.length
        acc := (fullBlocks m.length (m.drop (space e.len))).1.foldl compressBlock
          (compressBlock e.acc (e.completedBlock m))
        buf := writeBuf (e.completedBlock m) 0 (fullBlocks m.length (m.drop (space e.len))).2 } := by
  have hne : m ≠ [] := List.length_pos_iff.mp (Nat.lt_of_lt_of_le (space_pos e.len) h)
  rw [absorb, if_neg (by simpa using hne), if_pos h]
  rfl

/-- Settles O20: only LEN and BUF are written, and LEN stays within its block. -/
theorem absorbOnlyBuffers : Obligations.AbsorbOnlyBuffers := by
  intro e m h
  have hsum := fill_add_space e.len
  have hfill : fill (advanceLen e.len m.length) = fill e.len + m.length := by
    rw [fill_advanceLen]
    exact Nat.mod_eq_of_lt (by omega)
  rw [absorb_of_lt_space h]
  exact ⟨writeBuf_toList m e.buf (fill e.len) (by omega), absorbedBlocks_eq_nil (by omega), rfl, rfl, hfill,
    by rw [hfill]; omega⟩

/-- R144: block `k` that the loop takes is the 64 bytes at `64 * k`. -/
theorem getElem_fullBlocks (fuel : Nat) (m : List Byte) (k : Nat) (h : k < (fullBlocks fuel m).1.length) :
    (fullBlocks fuel m).1[k].toList = (m.drop (64 * k)).take 64 := by
  induction fuel generalizing m k with
  | zero => exact absurd h (Nat.not_lt_zero k)
  | succ fuel ih =>
    by_cases h64 : 64 ≤ m.length
    · simp only [fullBlocks, dif_pos h64, List.length_cons] at h ⊢
      cases k with
      | zero => rfl
      | succ k =>
        rw [List.getElem_cons_succ, ih (m.drop 64) k (Nat.lt_of_succ_lt_succ h), List.drop_drop, Nat.mul_add_one,
          Nat.add_comm]
    · simp [fullBlocks, h64] at h

/-- Settles O21: the input after the completed block splits into the loop's blocks and a remainder shorter than one. -/
theorem absorbCompletesBlocks : Obligations.AbsorbCompletesBlocks := by
  intro e m h
  have hsum := fill_add_space e.len
  obtain ⟨hcount, -, hrest⟩ := fullBlocks_spec m.length (m.drop (space e.len)) (by simp)
  have hblock := getElem_fullBlocks m.length (m.drop (space e.len))
  rw [absorb_of_space_le h]
  generalize fullBlocks m.length (m.drop (space e.len)) = taken at hcount hrest hblock ⊢
  obtain ⟨direct, rest⟩ := taken
  simp only [List.length_drop] at hcount
  have hp : space e.len + 64 * direct.length ≤ m.length := by omega
  have hlt : m.length - (space e.len + 64 * direct.length) < 64 := by omega
  have hrest' : rest = m.drop (space e.len + 64 * direct.length) := by
    rw [← List.drop_drop, hcount, ← List.length_drop]
    exact hrest
  refine ⟨e.completedBlock m, direct, space e.len + 64 * direct.length, completed_toList e m h, rfl, hp, hlt,
    fun k hk => ?_, rfl, ?_, ?_, rfl⟩
  · rw [← List.drop_drop]
    exact hblock k hk
  · have hlen : rest.length = m.length - (space e.len + 64 * direct.length) := by rw [hrest', List.length_drop]
    rw [writeBuf_toList rest _ 0 (by omega), hlen, hrest', List.take_zero, List.nil_append, Nat.zero_add]
  · rw [fill_advanceLen]
    omega

/-! ### Counting blocks (R149) -/

/-- R149: how many blocks one Absorb compresses. -/
theorem absorbedBlocks_length (e : DigestState) (m : List Byte) :
    (absorbedBlocks e m).length = (fill e.len + m.length) / 64 := by
  obtain ⟨hcount, -, -⟩ := fullBlocks_spec (e.pending ++ m).length (e.pending ++ m) (Nat.le_refl _)
  rw [absorbedBlocks_eq, blocksOf, hcount, List.length_append, pending_length]

theorem fill_absorb (e : DigestState) (m : List Byte) : fill (absorb e m).len = (fill e.len + m.length) % 64 := by
  rw [absorb_len, fill_advanceLen]

/-- Settles O22: each count is the number of bytes before the Absorb and in it, by the block. -/
theorem absorbTransformCount : Obligations.AbsorbTransformCount := fun e m =>
  ⟨absorbedBlocks_length e m, absorb_acc e m, fill_absorb e m⟩

/-- Settles O23: the two pieces' blocks, and what is left after them, are those of their concatenation. -/
theorem absorbOfPieces : Obligations.AbsorbOfPieces := absorb_absorb_sameButStale

/-! ### INIT and UPDATE (R146 to R148) -/

/-- Settles O25: INIT writes the initial engine, whose items are those of R31. -/
theorem initStartsAfresh : Obligations.InitStartsAfresh := fun _ => rfl

/-- R147: UPDATE with N ≥ 1 in a live state absorbs its payload. -/
theorem exec_update_absorbs {s : State} {n : BitVec 24} {pb : List Byte} (h : s.Live) (hn : pb.length = n.toNat)
    (h0 : n ≠ 0) :
    exec (.update n pb) s =
      .next (State.respond { s with engine := { absorb s.engine pb with phase := phaseUpdating } } .ok [] []) := by
  have hne : pb ≠ [] := by
    rintro rfl
    exact h0 (BitVec.eq_of_toNat_eq hn.symm)
  rw [exec_update_live h hn, if_neg hne]

/-- R148: UPDATE with N = 0 in a live state only responds. -/
theorem exec_update_zero {s : State} {pb : List Byte} (h : s.Live) (hn : pb.length = (0 : BitVec 24).toNat) :
    exec (.update 0 pb) s = .next (s.respond .ok [] []) := by
  have hnil : pb = [] := List.length_eq_zero_iff.mp hn
  rw [exec_update_live h hn, if_pos hnil]

/-- Settles O26: a live state passes UPDATE's guard, and a payload of another length does not reach it. -/
theorem updateAbsorbsItsPayload : Obligations.UpdateAbsorbsItsPayload := fun _ _ s =>
  ⟨fun hn h0 hlive => exec_update_absorbs hlive hn h0, exec_update_badOperand s⟩

/-- Settles O27: UPDATE of no bytes, by PHASE. -/
theorem emptyUpdateWritesNothing : Obligations.EmptyUpdateWritesNothing := fun _ =>
  ⟨fun hlive => exec_update_zero hlive rfl, fun hspent => exec_update_finalized hspent rfl⟩

/-! ### The bytes of words, LEN and the digest (R101, R153, R154) -/

/-- R101: byte `k` of a word is its bits from `8 * k` up. -/
theorem encodeWord_toList (w : Word) :
    (encodeWord w).toList = (List.range 4).map fun k => w.extractLsb' (8 * k) 8 := rfl

/-- A field of a field is a field of the whole. -/
theorem extractLsb'_extractLsb' {w : Nat} (x : BitVec w) (start start' : Nat) {len len' : Nat}
    (h : start' + len' ≤ len) :
    (x.extractLsb' start len).extractLsb' start' len' = x.extractLsb' (start + start') len' := by
  ext k hk
  have hin : start' + k < len := by omega
  simp [hin, Nat.add_assoc]

/-- R153: byte `k` of the length field is the bits of LEN from `8 * k` up: the low word comes first. -/
theorem lengthField_eq (len : BitVec 64) :
    lengthField len = (List.range 8).map fun k => len.extractLsb' (8 * k) 8 := by
  have hbytes (start : Nat) : (encodeWord (len.extractLsb' start 32)).toList
      = (List.range 4).map fun k => len.extractLsb' (start + 8 * k) 8 := by
    rw [encodeWord_toList]
    refine List.map_congr_left fun k hk => extractLsb'_extractLsb' len start (8 * k) ?_
    have hlt := List.mem_range.mp hk
    omega
  rw [lengthField, lenLo, lenHi, hbytes 0, hbytes 32]
  rfl

/-! ### Padding and length field (R151 to R153, R156) -/

/-- R152, R151: the padding brings fill to 56. -/
theorem fill_absorb_padding (e : DigestState) : fill (absorb e (padding (fill e.len))).len = 56 := by
  obtain ⟨-, -, hmod⟩ := padLen_spec (fill e.len) (fill_lt e.len)
  rw [fill_absorb, padding_length _ (fill_lt e.len)]
  exact hmod

/-- R152: the padding completes a block exactly when the pending bytes leave no room for it before byte 56. -/
theorem absorbedBlocks_padding_length (e : DigestState) :
    (absorbedBlocks e (padding (fill e.len))).length = if fill e.len < 56 then 0 else 1 := by
  have hlt := fill_lt e.len
  rw [absorbedBlocks_length, padding_length _ hlt, padLen]
  split <;> omega

/-- R153: from fill 56 the length field completes one block. -/
theorem absorbedBlocks_lengthField_length {e : DigestState} (h : fill e.len = 56) (len : BitVec 64) :
    (absorbedBlocks e (lengthField len)).length = 1 := by
  rw [absorbedBlocks_length, h, lengthField_length]
  rfl

/-- R153: the length field leaves fill 0. -/
theorem fill_padAndLength (e : DigestState) : fill (padAndLength e).len = 0 := by
  rw [padAndLength, fill_absorb, fill_absorb_padding, lengthField_length]
  rfl

/-- R32: LEN after both Absorbs of FINALIZE. -/
theorem padAndLength_len (e : DigestState) : (padAndLength e).len = advanceLen e.len (padLen (fill e.len) + 8) := by
  rw [padAndLength, absorb_len, absorb_len, advanceLen_advanceLen, padding_length _ (fill_lt e.len), lengthField_length]
  rfl

/-- The accumulators after both Absorbs of FINALIZE are the fold over the blocks of the two. -/
theorem padAndLength_acc (e : DigestState) :
    (padAndLength e).acc
      = (absorbedBlocks e (padding (fill e.len))
          ++ absorbedBlocks (absorb e (padding (fill e.len))) (lengthField e.len)).foldl compressBlock e.acc := by
  rw [padAndLength, absorb_acc, absorb_acc, List.foldl_append]

/-! ### FINALIZE (R150 to R155) -/

/-- FINALIZE in a live state has one answer. -/
theorem eq_of_exec_finalize_live {s t : State} (hlive : s.Live) (h : exec .finalize s = .next t) :
    t = State.respond { s with engine := { padAndLength s.engine with phase := phaseFinalized } } .ok []
      (digestBytes (padAndLength s.engine).acc) :=
  Host.Outcome.next.inj (h.symm.trans (exec_finalize_live hlive))

/-- Settles O28: the written-out padding and length field are the model's, whose lengths give every count. -/
theorem finalizePadsAndAppendsLength : Obligations.FinalizePadsAndAppendsLength := by
  intro s hlive e padlen pad lengthBytes padded final
  obtain ⟨hpos, hle, hmod⟩ := padLen_spec (fill e.len) (fill_lt e.len)
  have hbytes : lengthBytes = lengthField e.len := (lengthField_eq e.len).symm
  have hfinal : final = padAndLength e := congrArg (absorb padded) hbytes
  have hlen : padded.len = advanceLen e.len padlen :=
    (absorb_len e pad).trans (congrArg _ (padding_length (fill e.len) (fill_lt e.len)))
  have hfill : fill padded.len = 56 := fill_absorb_padding e
  rw [hfinal, hbytes]
  exact ⟨rfl, hpos, hle, hmod, hlen, hfill, absorbedBlocks_padding_length e,
    absorbedBlocks_lengthField_length hfill e.len, fill_padAndLength e, _, exec_finalize_live hlive⟩

/-- Settles O29: the response carries the bytes of the accumulators that both Absorbs leave. -/
theorem digestIsTheAccumulators : Obligations.DigestIsTheAccumulators := by
  intro s t hlive h
  rw [eq_of_exec_finalize_live hlive h]
  exact ⟨_, rfl, digestBytes_length _, rfl, rfl⟩

/-- Settles O30: FINALIZE's one answer, with fill and LEN as its two Absorbs leave them. -/
theorem stateAfterFinalize : Obligations.StateAfterFinalize := by
  intro s t hlive h
  rw [eq_of_exec_finalize_live hlive h]
  exact ⟨rfl, fill_padAndLength s.engine, padAndLength_len s.engine, rfl⟩

/-- R150: in a live state FINALIZE's transforms are those of its two Absorbs. -/
theorem transformBlocks_finalize {s : State} (h : s.Live) :
    transformBlocks .finalize s
      = absorbedBlocks s.engine (padding (fill s.engine.len))
        ++ absorbedBlocks (absorb s.engine (padding (fill s.engine.len))) (lengthField s.engine.len) :=
  if_pos ⟨(isFinalized_eq_false _).mpr h.ne_finalized, (phaseLegal_iff _).mpr h.ne_undefined⟩

/-- R156: the padded message has one or two blocks more than the complete ones of the message. -/
theorem paddedMessage_length (m : List Byte) :
    (paddedMessage m).length = 64 * (m.length / 64 + if m.length % 64 < 56 then 1 else 2) := by
  rw [paddedMessage, List.length_append, List.length_append, padding_length _ (Nat.mod_lt _ (by decide)),
    lengthField_length, Config.lenFieldBytes, padLen]
  split <;> omega

/-- Settles O32: the blocks of the padding and the one of the length field. -/
theorem finalizeTransformCount : Obligations.FinalizeTransformCount := by
  refine ⟨fun s hlive => ?_, paddedMessage_length⟩
  have hpad := absorbedBlocks_padding_length s.engine
  have hlength := absorbedBlocks_lengthField_length (fill_absorb_padding s.engine) s.engine.len
  rw [transformBlocks_finalize hlive]
  refine ⟨?_, hpad, hlength, _, exec_finalize_live hlive, padAndLength_acc s.engine⟩
  rw [List.length_append, hpad, hlength]
  split <;> rfl

/-! ### The spent state (R155) -/

/-- R155: in FINALIZED a well-formed command keeps the engine unless it is INIT, and the engine's other two commands
answer MISUSE. -/
theorem exec_finalized {i : Instr} {s : State} (hi : i.wellFormed = true) (h : s.engine.phase = phaseFinalized) :
    ∃ t : State, exec i s = .next t ∧ (t.engine = s.engine ∨ i = .init)
      ∧ (i.opcode = .update ∨ i.opcode = .finalize → t.output = s.output ++ [⟨.misuse, [], []⟩]) := by
  cases i with
  | init => exact ⟨_, rfl, .inr rfl, by simp [Instr.opcode]⟩
  | update n pb => exact ⟨_, exec_update_finalized h (beq_iff_eq.mp hi), .inl rfl, fun _ => rfl⟩
  | finalize => exact ⟨_, exec_finalize_finalized h, .inl rfl, fun _ => rfl⟩
  | decw _ | encw _ | compress _ _ => exact ⟨_, rfl, .inl rfl, by simp [Instr.opcode]⟩

/-- R155, R204: in FINALIZED every transaction but INIT's keeps the engine, and those of UPDATE and FINALIZE answer
MISUSE. -/
theorem runTransaction_finalized {s : State} (tx : Transaction) (h : s.engine.phase = phaseFinalized) :
    ∃ t : State, s.runTransaction tx = .next t ∧ (t.engine = s.engine ∨ tx = encode .init)
      ∧ ∀ i, decode tx = .ok i → i.opcode = .update ∨ i.opcode = .finalize →
          t.output = s.output ++ [⟨.misuse, [], []⟩] := by
  cases hdec : decode tx with
  | ok i =>
    obtain ⟨hwf, rfl⟩ := encodeOfDecode tx i hdec
    obtain ⟨t, ht, hkept, hmisuse⟩ := exec_finalized hwf h
    refine ⟨t, (runTransaction_ok hdec).trans ht, hkept.imp_right (congrArg encode), fun j hj => ?_⟩
    cases hj
    exact hmisuse
  | error r => exact ⟨_, runTransaction_error hdec, .inl rfl, fun i hi => by cases hi⟩

/-- Settles O34: only INIT's transaction and the two resets write a spent engine. -/
theorem finalizedLastsUntilInitOrReset : Obligations.FinalizedLastsUntilInitOrReset := by
  refine ⟨fun s t hlive h => ?_, fun s ev hspent => ?_⟩
  · rw [eq_of_exec_finalize_live hlive h]
    exact ⟨rfl, _, rfl⟩
  · cases ev with
    | command tx =>
      obtain ⟨t, ht, hkept, hmisuse⟩ := runTransaction_finalized tx hspent
      refine ⟨t, ht, hkept.imp_right fun htx => .inl (congrArg _ htx), fun tx' i hev => ?_⟩
      cases hev
      exact hmisuse i
    | reset => exact ⟨_, takeEvent_reset s, .inr (.inr (.inl rfl)), fun _ _ hev => by cases hev⟩
    | resetDuring cut =>
      exact ⟨_, takeEvent_resetDuring s cut, .inr (.inr (.inr ⟨cut, rfl⟩)), fun _ _ hev => by cases hev⟩

/-! ### How PHASE moves (R157) -/

/-- R157's row for UPDATE. -/
theorem exec_update_phase {s : State} {n : BitVec 24} {pb : List Byte} (hsafe : s.Safe) (hn : pb.length = n.toNat) :
    ∃ (t : State) (r : Response), exec (.update n pb) s = .next t ∧ t.output = s.output ++ [r]
      ∧ (s.engine.phase = phaseFinalized → t.engine.phase = phaseFinalized ∧ r = ⟨.misuse, [], []⟩)
      ∧ (s.engine.phase ≠ phaseFinalized → n = 0 → t.engine.phase = s.engine.phase ∧ r = okResponse)
      ∧ (s.engine.phase ≠ phaseFinalized → n ≠ 0 → t.engine.phase = phaseUpdating ∧ r = okResponse) := by
  rcases hsafe.live_or_finalized with hlive | hspent
  · have hne := hlive.ne_finalized
    by_cases h0 : n = 0
    · subst h0
      exact ⟨_, _, exec_update_zero hlive hn, rfl, fun h => absurd h hne, fun _ _ => ⟨rfl, rfl⟩,
        fun _ h => absurd rfl h⟩
    · exact ⟨_, _, exec_update_absorbs hlive hn h0, rfl, fun h => absurd h hne, fun _ h => absurd h h0,
        fun _ _ => ⟨rfl, rfl⟩⟩
  · exact ⟨_, _, exec_update_finalized hspent hn, rfl, fun _ => ⟨hspent, rfl⟩, fun h => absurd hspent h,
      fun h => absurd hspent h⟩

/-- R157's row for FINALIZE. -/
theorem exec_finalize_answers {s : State} (hsafe : s.Safe) :
    ∃ (t : State) (r : Response), exec .finalize s = .next t ∧ t.output = s.output ++ [r]
      ∧ t.engine.phase = phaseFinalized
      ∧ (s.engine.phase = phaseFinalized → r = ⟨.misuse, [], []⟩)
      ∧ (s.engine.phase ≠ phaseFinalized → r.sts = .ok ∧ r.rb.length = 16) := by
  rcases hsafe.live_or_finalized with hlive | hspent
  · exact ⟨_, _, exec_finalize_live hlive, rfl, rfl, fun h => absurd h hlive.ne_finalized,
      fun _ => ⟨rfl, digestBytes_length _⟩⟩
  · exact ⟨_, _, exec_finalize_finalized hspent, rfl, hspent, fun _ => rfl, fun h => absurd hspent h⟩

/-- Settles O33: one row of the table per command; a refused transaction only responds, and a reset starts afresh. -/
theorem phaseMoves : Obligations.PhaseMoves := by
  refine ⟨fun i s hi hsafe => ?_, fun s t tx rej hdec h => ?_, fun s => ⟨_, takeEvent_reset s, rfl⟩⟩
  · cases i with
    | init => exact ⟨_, _, rfl, rfl, rfl, rfl⟩
    | update n pb => exact exec_update_phase hsafe (beq_iff_eq.mp hi)
    | finalize => exact exec_finalize_answers hsafe
    | decw _ | encw _ | compress _ _ => exact ⟨_, _, rfl, rfl, rfl, rfl⟩
  · cases (runTransaction_error hdec).symm.trans h
    rfl

/-! ### Stale bytes (R25) -/

theorem DigestState.SameButStale.pending_eq {e e' : DigestState} (h : e.SameButStale e') : e.pending = e'.pending :=
  h.pending

/-- Absorb reads no stale byte: the pending bytes and the input determine the blocks and what is left of them. -/
theorem DigestState.SameButStale.absorb {e e' : DigestState} (h : e.SameButStale e') (m : List Byte) :
    (absorb e m).SameButStale (absorb e' m) where
  acc := by rw [absorb_acc, absorb_acc, absorbedBlocks_eq, absorbedBlocks_eq, h.pending_eq, h.acc]
  len := by rw [absorb_len, absorb_len, h.len]
  pending := by
    show (Machine.absorb e m).pending = (Machine.absorb e' m).pending
    rw [absorb_pending, absorb_pending, h.pending_eq]
  phase := by rw [absorb_phase, absorb_phase, h.phase]

theorem DigestState.SameButStale.padAndLength {e e' : DigestState} (h : e.SameButStale e') :
    (padAndLength e).SameButStale (padAndLength e') := by
  rw [Machine.padAndLength, Machine.padAndLength, h.len]
  exact (h.absorb _).absorb _

/-- States that differ only in stale bytes are live together. -/
theorem live_of_sameButStale {s s' : State} (h : s.engine.SameButStale s'.engine) (hlive : s.Live) : s'.Live := by
  rwa [State.Live, ← h.phase]

/-- Settles O24: PHASE decides which answer UPDATE and FINALIZE give, and Absorb reads no stale byte. -/
theorem staleBytesAreNeverRead : Obligations.StaleBytesAreNeverRead := by
  intro i s s' t heng hout h
  have hanswer (r : Response) : s'.output ++ [r] = s.output ++ [r] := by rw [hout]
  cases i with
  | init =>
    cases h
    exact ⟨_, rfl, hanswer _, sameButStale_refl _⟩
  | update n pb =>
    rcases execUpdate_next h with ⟨hn, rfl⟩ | ⟨hn, hspent, rfl⟩ | ⟨hn, hlive, rfl, rfl⟩ | ⟨hn, hlive, h0, rfl⟩
    · exact ⟨_, exec_update_badOperand s' hn, hanswer _, heng⟩
    · exact ⟨_, exec_update_finalized (heng.phase ▸ hspent) hn, hanswer _, heng⟩
    · exact ⟨_, exec_update_zero (live_of_sameButStale heng hlive) hn, hanswer _, heng⟩
    · exact ⟨_, exec_update_absorbs (live_of_sameButStale heng hlive) hn h0, hanswer _,
        (heng.absorb pb).withPhase _⟩
  | finalize =>
    rcases execFinalize_next h with ⟨hspent, rfl⟩ | ⟨hlive, rfl⟩
    · exact ⟨_, exec_finalize_finalized (heng.phase ▸ hspent), hanswer _, heng⟩
    · have hpad := heng.padAndLength
      refine ⟨_, exec_finalize_live (live_of_sameButStale heng hlive), ?_, hpad.withPhase _⟩
      rw [← hpad.acc]
      exact hanswer _
  | decw _ | encw _ | compress _ _ =>
    cases h
    exact ⟨_, rfl, hanswer _, heng⟩

end Sys2Proof.Machine

/-! PROOFS. The errors (spec/60_exceptions.md): what refuses a transaction and with which status, that a refusal writes
no state, and which commands never read the state. -/

namespace Sys2Proof

/-- R63: an OPC names one row of the map. -/
theorem Opcode.toByte_inj {op op' : Opcode} : op.toByte = op'.toByte ↔ op = op' :=
  ⟨Opcode.toByte_injective, congrArg _⟩

end Sys2Proof

namespace Sys2Proof.Machine

/-! ### Transactions the decoder refuses (R201, R202) -/

/-- R201, R204: an illegal OPC raises its error in every state, whatever the payload. -/
theorem runTransaction_of_not_legalOpc (s : State) {tx : Transaction} (h : ¬ LegalOpc (opcField tx.cmd)) :
    s.runTransaction tx = .next (s.raise .illegalOpcode) := runTransaction_error (decode_of_not_legalOpc h)

/-- R202, R204: a wrong shape raises its error in every state. -/
theorem runTransaction_of_not_wellShaped (s : State) {tx : Transaction} (hlegal : LegalOpc (opcField tx.cmd))
    (hbad : ¬ WellShaped tx) : s.runTransaction tx = .next (s.raise .badOperand) := by
  obtain ⟨op, hop⟩ := (legalOpc_iff _).mp hlegal
  exact runTransaction_error (decode_of_not_shapeOk hop (hbad ∘ (wellShaped_iff hop).mpr))

/-- Settles O38: the decoder refuses the transaction, and the refusal's status is all that is recorded. -/
theorem badOperandIsRefused : Obligations.BadOperandIsRefused := fun s _ => runTransaction_of_not_wellShaped s

/-- R66: the numbers that are no OPC of the map, of all 256. -/
theorem illegalOpcodes_eq :
    ((List.range 256).filter fun n => (Opcode.ofByte (BitVec.ofNat 8 n)).isNone)
      = 0x00 :: (List.range 12).map (· + 0x04) ++ (List.range 237).map (· + 0x13) := by
  decide +kernel

/-- Settles O37: the decoder looks at OPC before anything else, and the map leaves out 1 + 12 + 237 values. -/
theorem illegalOpcodeIsRefused : Obligations.IllegalOpcodeIsRefused := by
  refine ⟨fun s _ => runTransaction_of_not_legalOpc s, illegalOpcodes_eq, ?_⟩
  rw [illegalOpcodes_eq, List.length_append, List.length_cons, List.length_map, List.length_map, List.length_range,
    List.length_range]

/-! ### Everything a command can answer (R203, R204) -/

/-- R203: an UPDATE or a FINALIZE that meets a spent state. -/
def Misused (i : Instr) (s : State) : Prop :=
  (i.opcode = .update ∨ i.opcode = .finalize) ∧ s.engine.phase = phaseFinalized

/-- Everything a command can answer: BAD_OPERAND where it is ill-formed, MISUSE where it meets a spent state, and OK. -/
theorem exec_cases {i : Instr} {s t : State} (h : exec i s = .next t) :
    (i.wellFormed = false ∧ t = s.raise .badOperand)
      ∨ (Misused i s ∧ t = s.raise .misuse)
      ∨ (¬ Misused i s ∧ ∃ r : Response, r.sts = .ok ∧ t.output = s.output ++ [r]) := by
  cases i with
  | update n pb =>
    rcases execUpdate_next h with ⟨hn, ht⟩ | ⟨-, hspent, ht⟩ | ⟨-, hlive, -, rfl⟩ | ⟨-, hlive, -, rfl⟩
    · exact .inl ⟨beq_eq_false_iff_ne.mpr hn, ht⟩
    · exact .inr (.inl ⟨⟨.inl rfl, hspent⟩, ht⟩)
    · exact .inr (.inr ⟨fun hm => hlive.ne_finalized hm.2, _, rfl, rfl⟩)
    · exact .inr (.inr ⟨fun hm => hlive.ne_finalized hm.2, _, rfl, rfl⟩)
  | finalize =>
    rcases execFinalize_next h with ⟨hspent, ht⟩ | ⟨hlive, rfl⟩
    · exact .inr (.inl ⟨⟨.inr rfl, hspent⟩, ht⟩)
    · exact .inr (.inr ⟨fun hm => hlive.ne_finalized hm.2, _, rfl, rfl⟩)
  | init | decw _ | encw _ | compress _ _ =>
    cases h
    exact .inr (.inr ⟨by simp [Misused, Instr.opcode], _, rfl, rfl⟩)

/-- The list of responses before and after determines the one that was added. -/
theorem addedResponse_unique {s t : State} {r r' : Response} (h : t.output = s.output ++ [r])
    (h' : t.output = s.output ++ [r']) : r = r' := List.singleton_inj.mp (List.append_cancel_left (h.symm.trans h'))

/-- The status of a well-formed command that completes. -/
theorem sts_of_exec {i : Instr} {s t : State} {r : Response} (hi : i.wellFormed = true) (h : exec i s = .next t)
    (hout : t.output = s.output ++ [r]) : (Misused i s → r.sts = .misuse) ∧ (¬ Misused i s → r.sts = .ok) := by
  rcases exec_cases h with ⟨hbad, -⟩ | ⟨hm, rfl⟩ | ⟨hm, r', hok, hout'⟩
  · rw [hi] at hbad
    cases hbad
  · cases addedResponse_unique hout (s.raise_output .misuse)
    exact ⟨fun _ => rfl, fun hn => absurd hm hn⟩
  · cases addedResponse_unique hout hout'
    exact ⟨fun h => absurd h hm, fun _ => hok⟩

/-- R204: a transaction that completes raises an error, or answers OK. -/
theorem runTransaction_cases {tx : Transaction} {s t : State} (h : s.runTransaction tx = .next t) :
    (∃ e, t = s.raise e) ∨ ∃ r : Response, r.sts = .ok ∧ t.output = s.output ++ [r] := by
  cases hdec : decode tx with
  | ok i =>
    rcases exec_cases (runTransaction_ok hdec ▸ h) with ⟨-, ht⟩ | ⟨-, ht⟩ | ⟨-, hok⟩
    · exact .inl ⟨_, ht⟩
    · exact .inl ⟨_, ht⟩
    · exact .inr hok
  | error e =>
    rw [runTransaction_error hdec] at h
    cases h
    exact .inl ⟨_, rfl⟩

/-- Settles O40: a response that is not OK was raised, and raising writes nothing but the response. -/
theorem errorsWriteNoState : Obligations.ErrorsWriteNoState := by
  intro s t tx r h hout hne
  rcases runTransaction_cases h with ⟨e, rfl⟩ | ⟨r', hok, hout'⟩
  · cases addedResponse_unique hout (s.raise_output e)
    exact ⟨rfl, rfl, rfl⟩
  · cases addedResponse_unique hout hout'
    exact absurd hok hne

/-! ### The status of every transaction (R205) -/

/-- R65: a legal transaction of the right shape runs a well-formed command of the row its OPC names. -/
theorem exists_decode_eq_ok {tx : Transaction} (hlegal : LegalOpc (opcField tx.cmd)) (hshaped : WellShaped tx) :
    ∃ i : Instr, decode tx = .ok i ∧ i.wellFormed = true ∧ i.opcode.toByte = opcField tx.cmd := by
  obtain ⟨op, hop⟩ := (legalOpc_iff _).mp hlegal
  have hshape := (wellShaped_iff hop).mp hshaped
  exact ⟨_, decode_of_shapeOk hop hshape, operands_wellFormed op tx hshape, by rw [operands_opcode, hop]⟩

/-- R203 by number: OPC 0x02 or 0x03 in FINALIZED. -/
theorem misused_iff (i : Instr) (s : State) :
    Misused i s ↔ (i.opcode.toByte = 0x02 ∨ i.opcode.toByte = 0x03) ∧ s.engine.phase = phaseFinalized := by
  rw [Misused, ← Opcode.toByte_inj, ← Opcode.toByte_inj, Opcode.toByte, Opcode.toByte]

/-- Settles O39: the decoder's checks come in R205's order, and PHASE is read only by a command they let through. -/
theorem statusOfEveryTransaction : Obligations.StatusOfEveryTransaction := by
  intro s tx hsafe
  by_cases hlegal : LegalOpc (opcField tx.cmd)
  · by_cases hshaped : WellShaped tx
    · obtain ⟨i, hdec, hi, hopc⟩ := exists_decode_eq_ok hlegal hshaped
      obtain ⟨t, ht, -⟩ := exec_safe i hsafe
      obtain ⟨-, r, hout⟩ := exec_next ht
      obtain ⟨hmisuse, hok⟩ := sts_of_exec hi ht hout
      rw [misused_iff, hopc] at hmisuse hok
      exact ⟨t, r, (runTransaction_ok hdec).trans ht, hout, fun h => absurd hlegal h, fun _ h => absurd hshaped h,
        fun _ _ => ⟨fun h => congrArg Status.code (hmisuse h), fun h => congrArg Status.code (hok h)⟩⟩
    · exact ⟨_, _, runTransaction_of_not_wellShaped s hlegal hshaped, rfl, fun h => absurd hlegal h, fun _ _ => rfl,
        fun _ h => absurd h hshaped⟩
  · exact ⟨_, _, runTransaction_of_not_legalOpc s hlegal, rfl, fun _ => rfl, fun h => absurd h hlegal,
      fun h => absurd h hlegal⟩

/-! ### Commands that do not read the state (R216, R32) -/

/-- R216: a well-formed DECW, ENCW or COMPRESS answers OK, the same in every state. -/
theorem exec_stateless_ok {i : Instr} (hi : i.wellFormed = true)
    (h : i.opcode = .decw ∨ i.opcode = .encw ∨ i.opcode = .compress) :
    ∃ r : Response, r.sts = .ok ∧ ∀ s : State, exec i s = .next { s with output := s.output ++ [r] } := by
  obtain ⟨r, hr⟩ := exec_stateless h
  have hnot : ¬ Misused i State.reset := fun hm => by cases hm.2
  exact ⟨r, (sts_of_exec hi (hr State.reset) rfl).2 hnot, hr⟩

/-- Settles O41: the shape checks do not read the state, and neither do the three commands behind them. -/
theorem statelessCommandsIgnoreTheState : Obligations.StatelessCommandsIgnoreTheState := by
  intro tx hopc
  have hlegal : LegalOpc (opcField tx.cmd) := .inr (.inr (.inr hopc))
  by_cases hshaped : WellShaped tx
  · obtain ⟨i, hdec, hi, hrow⟩ := exists_decode_eq_ok hlegal hshaped
    rw [← hrow] at hopc
    have hstateless : i.opcode = .decw ∨ i.opcode = .encw ∨ i.opcode = .compress :=
      hopc.imp Opcode.toByte_inj.mp (Or.imp Opcode.toByte_inj.mp Opcode.toByte_inj.mp)
    obtain ⟨r, hok, hr⟩ := exec_stateless_ok hi hstateless
    exact ⟨r, .inl hok, fun s => (runTransaction_ok hdec).trans (hr s)⟩
  · exact ⟨_, .inr rfl, fun s => runTransaction_of_not_wellShaped s hlegal hshaped⟩

/-- R155: what a command does to a spent state, whatever LEN and BUF hold: one response, and INIT starts afresh. -/
theorem exec_spent (i : Instr) :
    ∃ r : Response, ∀ s : State, s.engine.phase = phaseFinalized →
      exec i s = .next { s with
        engine := if i = .init then DigestState.initial else s.engine, output := s.output ++ [r] } := by
  cases i with
  | update n pb =>
    by_cases hn : pb.length = n.toNat
    · exact ⟨_, fun _ hspent => exec_update_finalized hspent hn⟩
    · exact ⟨_, fun s _ => exec_update_badOperand s hn⟩
  | finalize => exact ⟨_, fun _ hspent => exec_finalize_finalized hspent⟩
  | init | decw _ | encw _ | compress _ _ => exact ⟨_, fun _ _ => rfl⟩

/-- Settles O31: in a spent state the response depends on the command alone, and the engine is kept or made anew. -/
theorem spentLenAndBufAreNeverRead : Obligations.SpentLenAndBufAreNeverRead := by
  intro i s s' t hspent hspent' hacc hout h
  obtain ⟨r, hr⟩ := exec_spent i
  cases (hr s hspent).symm.trans h
  refine ⟨_, hr s' hspent', by rw [hout], ?_⟩
  split
  · exact ⟨rfl, rfl⟩
  · exact ⟨hacc.symm, hspent'.trans hspent.symm⟩

end Sys2Proof.Machine

/-! PROOFS. Resets, and what decides how many transforms a command performs (spec/70_reset_and_hazards.md). -/

namespace Sys2Proof.Machine

/-! ### Resets (R220, R222) -/

/-- R220, R222: both kinds of reset are one operation, which gives no response. -/
theorem takeEvent_of_reset {ev : HostEvent} (h : ev = .reset ∨ ∃ cut, ev = .resetDuring cut) (s : State) :
    s.takeEvent ev = .next s.resetCore := by
  rcases h with rfl | ⟨cut, rfl⟩
  · exact takeEvent_reset s
  · exact takeEvent_resetDuring s cut

/-- Settles O16: either reset leaves the initial engine, as INIT does, and keeps the responses. -/
theorem resetBetweenAndDuringCommands : Obligations.ResetBetweenAndDuringCommands := fun s _ h =>
  ⟨_, takeEvent_of_reset h s, initial_hasResetValues, rfl, s.resetCore_output, _, rfl, rfl⟩

/-! ### The number of transforms (R226) -/

/-- R61: the OPC of every command word is its row's, whatever the payload. -/
@[simp] theorem opcField_encode (i : Instr) : opcField (encode i).cmd = i.opcode.toByte := by
  cases i <;> exact opcField_cmdWord _ _

/-- R61: the command word names the row. -/
theorem opcode_eq_of_cmd_eq {i j : Instr} (h : (encode i).cmd = (encode j).cmd) : i.opcode = j.opcode := by
  rw [← Opcode.toByte_inj, ← opcField_encode, ← opcField_encode, h]

/-- R226: the number of transforms, from the row, ARG and payload length of a command and from LEN and PHASE. -/
def transformCount (op : Opcode) (arg : BitVec 24) (pbLength : Nat) (len : BitVec 64) (phase : PhaseReg) : Nat :=
  match op with
  | .update =>
    if pbLength = arg.toNat ∧ phase ≠ phaseFinalized ∧ phase ≠ phaseUndefined then (fill len + pbLength) / 64 else 0
  | .finalize =>
    if phase ≠ phaseFinalized ∧ phase ≠ phaseUndefined then if fill len < 56 then 1 else 2 else 0
  | .compress => 1
  | .init | .decw | .encw => 0

/-- R152, R153: the two Absorbs of FINALIZE perform one transform or two, by the pending bytes. -/
theorem finalizeBlocks_length (e : DigestState) :
    (absorbedBlocks e (padding (fill e.len))
      ++ absorbedBlocks (absorb e (padding (fill e.len))) (lengthField e.len)).length
        = if fill e.len < 56 then 1 else 2 := by
  rw [List.length_append, absorbedBlocks_padding_length,
    absorbedBlocks_lengthField_length (fill_absorb_padding e)]
  split <;> rfl

/-- R226: the blocks a command passes to Compress are as many as its word, payload length, LEN and PHASE say. -/
theorem transformBlocks_length (i : Instr) (s : State) :
    (transformBlocks i s).length
      = transformCount i.opcode (argField (encode i).cmd) (encode i).pb.length s.engine.len s.engine.phase := by
  cases i with
  | update n pb =>
    simp only [transformBlocks, transformCount, Instr.opcode, encode, argField_cmdWord, isFinalized_eq_false,
      phaseLegal_iff, apply_ite List.length, absorbedBlocks_length, List.length_nil]
  | finalize =>
    simp only [transformBlocks, transformCount, Instr.opcode, isFinalized_eq_false, phaseLegal_iff,
      apply_ite List.length, finalizeBlocks_length, List.length_nil]
  | init | decw _ | encw _ | compress _ _ => rfl

/-- Settles O54: the count is a function of what the two commands and states share, and a live state passes UPDATE's
guard. -/
theorem transformTimeIgnoresTheData : Obligations.TransformTimeIgnoresTheData := by
  refine ⟨fun n pb s hn hlive => ?_, fun i j s s' hcmd hpb hlen hphase => ?_⟩
  · rw [transformBlocks_length, Instr.opcode, encode, argField_cmdWord, transformCount,
      if_pos ⟨hn, hlive.ne_finalized, hlive.ne_undefined⟩, hn]
  · rw [transformTime, transformTime, transformBlocks_length, transformBlocks_length, opcode_eq_of_cmd_eq hcmd, hcmd,
      hpb, hlen, hphase]

end Sys2Proof.Machine
